-- ==== Sys2Proof/Word.lean ====
section
/-! DEFINITION. The plainest words of the engine: a byte, a host word, a bit-string, and the two narrow numbers the tree uses. -/

namespace Sys2Proof

/-- A Symbol or an artifact byte: 8 bits (`SYM_W`, 00_scope R6). -/
abbrev Byte := BitVec 8

/-- One host word: 32 bits (00_scope R6, 20_memory R67). -/
abbrev Word := BitVec 32

/-- A node frequency: 40 bits (`NFREQ_W`, 00_scope R6). -/
abbrev NodeFreq := BitVec 40

/-- A node index: 9 bits (`NIDX_W`, 00_scope R6). -/
abbrev NodeIdx := BitVec 9

/-- A bit-string, leftmost bit first (00_scope R9). -/
abbrev Bits := List Bool

end Sys2Proof
end

