-- ==== Sys2Proof/Config.lean ====
section
/-! DEFINITION. What an implementation fixes (the three buffer capacities) and the engine's one free value. -/

namespace Sys2Proof

/-- The three capacities, parameters of the model (00_scope R6, 10_state R22). They are carried in the state, so that
every statement about states covers every value of them. DESIGN CHOICE (entry 4), safe. -/
structure Caps where
  /-- symbols the source buffer holds (`SRC_CAP`) -/
  srcCap : Nat
  /-- bytes the artifact buffer holds (`ART_CAP`) -/
  artCap : Nat
  /-- symbols the destination buffer holds (`DST_CAP`) -/
  dstCap : Nat
  deriving DecidableEq, Repr

/-- The largest capacity, 2^26 (00_scope R6). -/
def Config.maxCap : Nat := 67108864

/-- The default capacities of 00_scope R6. -/
def Config.defaultCaps : Caps := { srcCap := 65536, artCap := 65537, dstCap := 65536 }

/-- FREE VALUE: the `n`-th byte drawn where the spec leaves a buffer entry unspecified (93_implementation_defined U1, U2).
It has no body, so no proof can know one of its values. DESIGN CHOICE (entry 1), safe. -/
opaque Config.freeByte : Nat → Byte

end Sys2Proof
end

