-- ==== Sys2Proof/Syntax.lean ====
section
/-! DEFINITION. The eight commands (30_encoding R92), and what the host can do at the engine's port and reset input. -/

namespace Sys2Proof

/-- The commands, one constructor per row of spec/opcode_table.json. No command carries an operand (30_encoding R91). -/
inductive Instr where
  /-- `NOP`, 46_control_commands R220 -/
  | nop
  /-- `CLEAR`, 46_control_commands R221 -/
  | clear
  /-- `COUNT`, 41_count R120 -/
  | count
  /-- `BUILD`, 42_build R130 -/
  | build
  /-- `CODES`, 43_codes R160 -/
  | codes
  /-- `PACK`, 44_pack R175 -/
  | pack
  /-- `UNPACK`, 45_unpack R195 -/
  | unpack
  /-- `ECLR`, 46_control_commands R223 -/
  | eclr
  deriving DecidableEq, Repr

/-- One thing the outside does to the engine: a bus access (20_memory R60) or an assertion of `reset`
(70_reset_and_hazards R270). -/
inductive HostInput where
  /-- `HostRead(addr)`, 20_memory R62 -/
  | read (addr : Word)
  /-- `HostWrite(addr, wdata)`, 20_memory R63 -/
  | write (addr wdata : Word)
  /-- the `reset` input, 70_reset_and_hazards R270 -/
  | reset
  deriving DecidableEq, Repr

/-- The two responses of the port (20_memory R60). -/
inductive Resp where
  | okay
  | error
  deriving DecidableEq, Repr

/-- The answer to one access: the response and the read data, 0 for an `ERROR` and for a write (20_memory R60). -/
structure Response where
  resp  : Resp
  rdata : Word
  deriving DecidableEq, Repr

end Sys2Proof
end

