-- ==== Sys2Proof/WellFormed.lean ====
section
/-! DEFINITION. The checks: a command word's reserved field and opcode range (30_encoding R91, R93), and the ranges of the
three capacities (00_scope R6). -/

namespace Sys2Proof

/-- Field `ZERO` of format C: bits [31:8] must be 0 (30_encoding R91). -/
def zeroFieldOk (w : Word) : Bool := w.extractLsb' 8 24 == 0#24

/-- Field `OPC` of format C: an opcode of the map, 0x00 to 0x07 (30_encoding R92, R93). -/
def opcodeOk (w : Word) : Bool := w.extractLsb' 0 8 ≤ 0x07#8

/-- A command word that rule R93 does not call illegal. -/
def wordWellFormed (w : Word) : Bool := zeroFieldOk w && opcodeOk w

/-- Well-formedness of a command. A command has no operand, immediate, address or modifier (30_encoding R91), so there is
nothing in it to check: every constructor is well-formed. -/
def Instr.wellFormed : Instr → Bool
  | .nop => true
  | .clear => true
  | .count => true
  | .build => true
  | .codes => true
  | .pack => true
  | .unpack => true
  | .eclr => true

/-- One capacity in its range, 1 ≤ c ≤ 2^26 (00_scope R6). -/
def capOk (c : Nat) : Bool := 1 ≤ c && c ≤ Config.maxCap

/-- All three capacities in range. -/
def Caps.wellFormed (c : Caps) : Bool := capOk c.srcCap && capOk c.artCap && capOk c.dstCap

end Sys2Proof
end

