-- ==== Sys2Proof/Decode.lean ====
section
/-! DEFINITION. Decoding a command word (30_encoding R93), total on every 32-bit word, and the encoder of 30_encoding R92. -/

namespace Sys2Proof

/-- Why a word is no command (30_encoding R93). -/
inductive DecodeError where
  /-- `w[31:8]` is not 0 -/
  | reservedBits
  /-- `w[31:8]` is 0 and `w[7:0]` is above 0x07 -/
  | unassignedOpcode
  deriving DecidableEq, Repr

/-- The command whose `OPC` is `opc` (30_encoding R92). -/
def commandOfOpcode (opc : Byte) : Option Instr :=
  match opc.toNat with
  | 0x00 => some .nop
  | 0x01 => some .clear
  | 0x02 => some .count
  | 0x03 => some .build
  | 0x04 => some .codes
  | 0x05 => some .pack
  | 0x06 => some .unpack
  | 0x07 => some .eclr
  | _ => none

/-- 30_encoding R93, in its order: reserved bits first, then the opcode. -/
def decode (w : Word) : Except DecodeError Instr :=
  if w.extractLsb' 8 24 ≠ 0#24 then .error .reservedBits
  else
    match commandOfOpcode (w.extractLsb' 0 8) with
    | some i => .ok i
    | none => .error .unassignedOpcode

/-- The command word of a command (30_encoding R92): `OPC` in bits [7:0], `ZERO` above. -/
def encode : Instr → Word
  | .nop => 0x00000000#32
  | .clear => 0x00000001#32
  | .count => 0x00000002#32
  | .build => 0x00000003#32
  | .codes => 0x00000004#32
  | .pack => 0x00000005#32
  | .unpack => 0x00000006#32
  | .eclr => 0x00000007#32

/-- `w[7:0]` of a command's word, what `STATUS.LASTOP` records (60_exceptions R245). -/
def opcodeOf (i : Instr) : Byte := (encode i).extractLsb' 0 8

/-- The command word whose bits are `w`, numbered as spec/opcode_table.json numbers them, as the host word it is
(30_encoding R90: every command is one 32-bit word); the bits from `nbits` up are 0. -/
def tableWord (nbits w : Nat) : Word := BitVec.ofNat 32 (w % 2 ^ nbits)

/-- The command this decoder reads from the table's word. -/
def decodeTableWord (nbits w : Nat) : Option Instr :=
  match decode (tableWord nbits w) with
  | .ok i => some i
  | .error _ => none

end Sys2Proof
end

