-- ==== Sys2Proof/Machine/State.lean ====
section
/-! DEFINITION. The engine's state (10_state), as plain data, its reset value (10_state R41), and the reasons a step stops. -/

namespace Sys2Proof.Machine

/-- The result codes of `STATUS.RESULT`, 0 to 5 in this order (60_exceptions R240). Values 6 to 15 never occur
(10_state R25), so there is no constructor for them. -/
inductive ResultCode where
  | ok
  | emptyAlphabet
  | lookupMiss
  | malformedStream
  | overflow
  | illegalCommand
  deriving DecidableEq, Repr

/-- `STATUS`, its three fields (10_state R25); the word the host reads is `Status.word`. -/
structure Status where
  result : ResultCode
  sticky : Bool
  lastop : Byte
  deriving DecidableEq, Repr

/-- `TREE`, its four fields (10_state R30); the word the host reads is `Tree.word`. -/
structure Tree where
  valid  : Bool
  nnodes : BitVec 10
  nleaf  : BitVec 9
  root   : NodeIdx
  deriving DecidableEq, Repr

/-- `TREE` = 0: no tree. -/
def Tree.none : Tree := { valid := false, nnodes := 0, nleaf := 0, root := 0 }

/-- One entry of `NODE` (10_state R33). -/
structure Node where
  valid : Bool
  leaf  : Bool
  sym   : Byte
  nfreq : NodeFreq
  left  : NodeIdx
  right : NodeIdx
  deriving DecidableEq, Repr

/-- A `NODE` entry with all fields 0. -/
def Node.zero : Node := { valid := false, leaf := false, sym := 0, nfreq := 0, left := 0, right := 0 }

/-- One entry of `CODE` (10_state R34). -/
structure CodeEntry where
  valid : Bool
  len   : Byte
  cbits : BitVec 256
  deriving DecidableEq, Repr

/-- A `CODE` entry with all fields 0. -/
def CodeEntry.zero : CodeEntry := { valid := false, len := 0, cbits := 0 }

/-- `FREQ[0..255]` (10_state R32). -/
abbrev FreqTable := Vector Word 256

/-- `NODE[0..510]` (10_state R33). -/
abbrev NodeTable := Vector Node 511

/-- `CODE[0..255]` (10_state R34). -/
abbrev CodeTable := Vector CodeEntry 256

/-- The empty FrequencyTable: 0 for every symbol. -/
def FreqTable.empty : FreqTable := Vector.replicate 256 0#32

/-- A node memory of invalid entries. -/
def NodeTable.empty : NodeTable := Vector.replicate 511 Node.zero

/-- The empty CodeTable. -/
def CodeTable.empty : CodeTable := Vector.replicate 256 CodeEntry.zero

/-- A buffer (`SRC`, `ART` or `DST`): the entries written since reset, as pairs of index and byte, in strictly rising index
order. An entry that is not listed is unspecified (93_implementation_defined U1): reading it draws a free value. DESIGN
CHOICE (entry 1), safe. -/
abbrev Memory := List Host.Cell

/-- The canonical form of a buffer: indices strictly rising, so equal buffers are equal lists. An unlisted entry has no
value, so no listed entry can equal what an unlisted one reads as. -/
abbrev Memory.wf (m : Memory) : Prop := (m.map Prod.fst).Pairwise (· < ·)

/-- The state of the engine. -/
structure State where
  /-- the capacities, parameters that never change (10_state R22, R31) -/
  caps : Caps
  /-- `STATUS` (10_state R25) -/
  status : Status
  /-- `ERR_INFO` (10_state R26) -/
  errInfo : Word
  /-- `SRC_LEN` (10_state R27) -/
  srcLen : Word
  /-- `ART_LEN` (10_state R28) -/
  artLen : Word
  /-- `DST_LEN` (10_state R29) -/
  dstLen : Word
  /-- `TREE` (10_state R30) -/
  tree : Tree
  /-- `FREQ` (10_state R32) -/
  freq : FreqTable
  /-- `NODE` (10_state R33) -/
  node : NodeTable
  /-- `CODE` (10_state R34) -/
  code : CodeTable
  /-- `SRC` (10_state R35) -/
  src : Memory
  /-- `ART` (10_state R36) -/
  art : Memory
  /-- `DST` (10_state R37) -/
  dst : Memory
  /-- the model's own: host inputs not answered yet, next one first (entry 5) -/
  pending : List HostInput
  /-- the model's own: the answers given, oldest first, the observable result of a run (70_reset_and_hazards R285, entry 5) -/
  responses : List Response
  /-- the model's own: how many free values have been drawn (entry 2) -/
  drawn : Nat
  deriving DecidableEq, Repr

/-- The state right after reset of an engine with capacities `c` (10_state R41): registers and tables 0, no buffer entry
with a specified value, no host input yet. -/
def State.resetWith (c : Caps) : State :=
  { caps := c
    status := { result := .ok, sticky := false, lastop := 0 }
    errInfo := 0
    srcLen := 0
    artLen := 0
    dstLen := 0
    tree := Tree.none
    freq := FreqTable.empty
    node := NodeTable.empty
    code := CodeTable.empty
    src := []
    art := []
    dst := []
    pending := []
    responses := []
    drawn := 0 }

/-- The state right after reset, with the default capacities of 00_scope R6. -/
def State.reset : State := State.resetWith Config.defaultCaps

/-- Why the machine stops with a fault. -/
inductive Fault where
  /-- Raised by `CODES` alone, when the walk from `TREE.ROOT` meets node index 511 (there is no such node) or goes deeper
  than the 255 bits a code can have: `NODE` is then not the tree of 10_state R40 item 4, which no run reaches, and
  43_codes R160 gives the walk no effect. Safe: the model stops where the spec says nothing (entry 7). -/
  | malformedTree
  deriving DecidableEq, Repr

/-- Why a step has no meaning. -/
inductive Refusal where
  /-- Raised by an arm of `exec` for an instruction without a meaning; no arm of this model does. Safe. -/
  | notModelled (mnemonic : String)
  deriving DecidableEq, Repr

end Sys2Proof.Machine
end

