-- ==== Sys2Proof/Machine/Flags.lean ====
section
/-! DEFINITION. The flags: the numbers of the result codes (60_exceptions R240) and how a command's end updates `STATUS`
(60_exceptions R245). No command reads a flag of `STATUS` (10_state R39). -/

namespace Sys2Proof.Machine

/-- The number of a result code (60_exceptions R240). -/
def ResultCode.number : ResultCode → BitVec 4
  | .ok => 0
  | .emptyAlphabet => 1
  | .lookupMiss => 2
  | .malformedStream => 3
  | .overflow => 4
  | .illegalCommand => 5

/-- `STICKY` after a command ends with `code`: set by any code but `OK`, otherwise kept (60_exceptions R245, R251). -/
def stickyAfter (sticky : Bool) (code : ResultCode) : Bool :=
  match code with
  | .ok => sticky
  | .emptyAlphabet => true
  | .lookupMiss => true
  | .malformedStream => true
  | .overflow => true
  | .illegalCommand => true

/-- `STATUS` after a command whose word has low byte `op` ends with `code` (60_exceptions R245). -/
def statusAfter (st : Status) (op : Byte) (code : ResultCode) : Status :=
  { result := code, sticky := stickyAfter st.sticky code, lastop := op }

/-- `STATUS.STICKY <- 0`, what `CLEAR` and `ECLR` do before they finish (46_control_commands R221, R223). -/
def stickyCleared (st : Status) : Status := { st with sticky := false }

end Sys2Proof.Machine
end

