-- ==== Sys2Proof/Machine/Operands.lean ====
section
/-! DEFINITION. The forms data takes: bit-strings and bytes (00_scope R9, R10), code entries (10_state R34), the words the
host reads (10_state R25, R30; 30_encoding R100, R102), and the address map (20_memory R64). -/

namespace Sys2Proof.Machine

/-! Bit-strings and bytes. -/

/-- The number a bit-string denotes, leftmost bit most significant. -/
def natOfBits (b : Bits) : Nat := b.foldl (fun v x => 2 * v + x.toNat) 0

/-- `byte_of(b)` for an 8-bit string (00_scope R10): the leftmost bit is bit 7. -/
def byteOf (b : Bits) : Byte := BitVec.ofNat 8 (natOfBits b)

/-- `bits_of(v)` (00_scope R10): `b_i = v[7-i]`. -/
def bitsOf (v : Byte) : Bits := (List.range 8).map fun i => v.getLsbD (7 - i)

/-- `zeros(n)` (00_scope R9). -/
def zeros (n : Nat) : Bits := List.replicate n false

/-- The bit-string a payload carries: its bytes' bits in order (30_encoding R105). -/
def bitsOfBytes (p : List Byte) : Bits := p.flatMap bitsOf

/-- The first `m` bytes of a bit-string, byte `j` from the bits `[8j..8j+8)` (44_pack R180). -/
def bytesOfBits : Nat → Bits → List Byte
  | 0, _ => []
  | m + 1, b => byteOf (b.take 8) :: bytesOfBits m (b.drop 8)

/-- The padding count for a bit-string of `len` bits (44_pack R179). -/
def padFor (len : Nat) : Nat := (8 - len % 8) % 8

/-! Tables indexed by symbol and by node index. -/

/-- Entry `s` of a table with one entry per symbol. -/
def symGet {α : Type} (t : Vector α 256) (s : Byte) : α := t[s.toNat]'s.isLt

/-- The table with entry `s` replaced. -/
def symSet {α : Type} (t : Vector α 256) (s : Byte) (x : α) : Vector α 256 := t.set s.toNat x s.isLt

/-- All symbols in ascending order, 0 to 255. -/
def allSymbols : List Byte := (List.range 256).map (BitVec.ofNat 8)

/-- Entry `n` of the node memory; there is no entry 511. -/
def nodeGet (t : NodeTable) (n : NodeIdx) : Option Node := t[n.toNat]?

/-! Code entries. -/

/-- `code_of(s)` for an entry: the `LEN` bits with `b_i = CBITS[255-i]` (10_state R34). -/
def codeBits (e : CodeEntry) : Bits := (List.range e.len.toNat).map fun i => e.cbits.getLsbD (255 - i)

/-- `CBITS` with bit `255-i-j` set to bit `j` of the bit-string, and every other bit 0. -/
def cbitsFrom (i : Nat) : Bits → BitVec 256
  | [] => 0
  | b :: bs => (if b then BitVec.twoPow 256 (255 - i) else 0) ||| cbitsFrom (i + 1) bs

/-- The entry `set_code(s, c)` writes, for 1 ≤ len(c) ≤ 255 (10_state R34). -/
def codeEntryOf (c : Bits) : CodeEntry :=
  { valid := true, len := BitVec.ofNat 8 c.length, cbits := cbitsFrom 0 c }

/-- `set_code(s, c)` (10_state R34). -/
def setCode (t : CodeTable) (s : Byte) (c : Bits) : CodeTable := symSet t s (codeEntryOf c)

/-- The code entry of symbol `s` holds a code and it is `c`: same length and same bits (45_unpack R199). -/
def codeMatches (t : CodeTable) (c : Bits) (s : Byte) : Bool :=
  (symGet t s).valid && codeBits (symGet t s) == c

/-- `lookup(c)` (45_unpack R199). Valid codes are distinct in every state a run reaches (10_state R40 item 5); should two
entries hold the same code, the smaller symbol is taken. DESIGN CHOICE (entry 8), safe. -/
def lookup (t : CodeTable) (c : Bits) : Option Byte := allSymbols.find? (codeMatches t c)

/-! The words the host reads. -/

/-- `STATUS` as a word (10_state R25). -/
def Status.word (st : Status) : Word :=
  0#16 ++ st.lastop ++ 0#3 ++ BitVec.ofBool st.sticky ++ st.result.number

/-- `TREE` as a word (10_state R30). -/
def Tree.word (t : Tree) : Word := BitVec.ofBool t.valid ++ 0#3 ++ t.nnodes ++ t.nleaf ++ t.root

/-- Word `w` of a node, 0 ≤ w ≤ 3 (30_encoding R100). -/
def Node.word (n : Node) (w : Nat) : Word :=
  match w with
  | 0 => n.nfreq.extractLsb' 0 32
  | 1 => 0#24 ++ n.nfreq.extractLsb' 32 8
  | 2 => BitVec.ofBool n.valid ++ BitVec.ofBool n.leaf ++ 0#4 ++ n.right ++ n.left ++ n.sym
  | _ => 0

/-- Word `w` of a code entry, 0 ≤ w ≤ 15 (30_encoding R102). -/
def CodeEntry.word (e : CodeEntry) (w : Nat) : Word :=
  if w = 0 then BitVec.ofBool e.valid ++ 0#23 ++ e.len
  else if w ≤ 8 then e.cbits.extractLsb' (224 - 32 * (w - 1)) 32
  else 0

/-! The address map. -/

/-- The control registers, in address order (10_state R23). -/
inductive Reg where
  | cmd | status | errInfo | srcLen | artLen | dstLen | tree | srcCap | artCap | dstCap
  deriving DecidableEq, Repr

/-- What a mapped address names (20_memory R65). -/
inductive Target where
  | reg (r : Reg)
  | freq (s : Byte)
  | node (n : NodeIdx) (w : Nat)
  | code (s : Byte) (w : Nat)
  | src (i : Nat)
  | art (i : Nat)
  | dst (i : Nat)
  deriving DecidableEq, Repr

/-- The register in slot `k` of the register block, at byte address 4k (10_state R23). -/
def regOfSlot (k : Nat) : Option Reg :=
  match k with
  | 0 => some .cmd
  | 1 => some .status
  | 2 => some .errInfo
  | 3 => some .srcLen
  | 4 => some .artLen
  | 5 => some .dstLen
  | 6 => some .tree
  | 7 => some .srcCap
  | 8 => some .artCap
  | 9 => some .dstCap
  | _ => none

/-- The map of 20_memory R64 and R65 for an aligned byte address; `none` is an unmapped address (R66). -/
def decodeAddr (c : Caps) (a : Nat) : Option Target :=
  if a < 0x28 then (regOfSlot (a / 4)).map .reg
  else if 0x400 ≤ a ∧ a < 0x800 then some (.freq (BitVec.ofNat 8 ((a - 0x400) / 4)))
  else if 0x2000 ≤ a ∧ a < 0x3FF0 then
    some (.node (BitVec.ofNat 9 ((a - 0x2000) / 16)) ((a - 0x2000) / 4 % 4))
  else if 0x4000 ≤ a ∧ a < 0x8000 then
    some (.code (BitVec.ofNat 8 ((a - 0x4000) / 64)) ((a - 0x4000) / 4 % 16))
  else if 0x10000000 ≤ a ∧ a < 0x10000000 + 4 * c.srcCap then some (.src ((a - 0x10000000) / 4))
  else if 0x20000000 ≤ a ∧ a < 0x20000000 + 4 * c.artCap then some (.art ((a - 0x20000000) / 4))
  else if 0x30000000 ≤ a ∧ a < 0x30000000 + 4 * c.dstCap then some (.dst ((a - 0x30000000) / 4))
  else none

/-- An access is aligned when `addr[1:0]` is 0 (20_memory R67). -/
def aligned (a : Word) : Bool := a.toNat % 4 == 0

end Sys2Proof.Machine
end

