-- ==== Sys2Proof/Machine/Ops.lean ====
section
/-! DEFINITION. The named operations: buffers, the end of a command (`finish`) and an error (`raise`, the engine's whole
"trap entry", 60_exceptions R246), the reset input, and answering an access. There is no return from an error
(60_exceptions R250), so no operation for one. -/

namespace Sys2Proof.Machine

/-! Buffers. -/

/-- The byte of entry `i`, if it has a specified value. -/
def Memory.read (m : Memory) (i : Nat) : Option Byte :=
  match m with
  | [] => none
  | c :: m => if c.1 = i then some c.2 else Memory.read m i

/-- Entry `i` becomes `b`, keeping the canonical form. -/
def Memory.write (m : Memory) (i : Nat) (b : Byte) : Memory :=
  match m with
  | [] => [(i, b)]
  | c :: m =>
    if i < c.1 then (i, b) :: c :: m
    else if c.1 = i then (i, b) :: m
    else c :: Memory.write m i b

/-- Entries `i`, `i+1`, ... become the bytes of the list. -/
def Memory.writeAll (m : Memory) (i : Nat) : List Byte → Memory
  | [] => m
  | b :: bs => Memory.writeAll (m.write i b) (i + 1) bs

/-- Every entry becomes unspecified (93_implementation_defined U2), and how many free values have then been drawn. An entry
that held a byte now holds a free value and goes on holding it, since two reads of it agree (20_memory R70); an entry that
nothing has written since reset stays unlisted, since two reads of that need not agree (U1). Entry 6, safe. -/
def Memory.scramble (m : Memory) (d : Nat) : Memory × Nat :=
  match m with
  | [] => ([], d)
  | c :: m => ((c.1, Config.freeByte d) :: (Memory.scramble m (d + 1)).1, (Memory.scramble m (d + 1)).2)

/-- Reading entry `i`: its byte, or the next free value where the entry is unspecified (93_implementation_defined U1). The
second component is how many free values have then been drawn. -/
def Memory.draw (m : Memory) (i d : Nat) : Byte × Nat :=
  match m.read i with
  | some b => (b, d)
  | none => (Config.freeByte d, d + 1)

/-- Reading the `n` entries from `i` up, each once, in ascending order. A command reads every entry once and computes from
what it read. DESIGN CHOICE (entry 3), unsafe. -/
def Memory.drawAll (m : Memory) (i : Nat) : Nat → Nat → List Byte × Nat
  | 0, d => ([], d)
  | n + 1, d =>
    let x := m.draw i d
    let r := Memory.drawAll m (i + 1) n x.2
    (x.1 :: r.1, r.2)

/-! The end of a command. -/

/-- `finish(code, info)` of a command whose word has low byte `op` (60_exceptions R245). -/
def finish (op : Byte) (code : ResultCode) (info : Word) (s : State) : State :=
  { s with status := statusAfter s.status op code, errInfo := info }

/-- `raise X(info)` (60_exceptions R246): the command ends with error `X`. The engine is not stopped (R250), so this is a
next state. -/
def raise (op : Byte) (x : ResultCode) (info : Word) (s : State) : State := finish op x info s

/-- A word that is no command: `IllegalCommand` and nothing else (60_exceptions R244). -/
def illegalCommand (w : Word) (s : State) : State := raise (w.extractLsb' 0 8) .illegalCommand w s

/-- `STATUS.STICKY <- 0` (46_control_commands R221, R223). -/
def clearSticky (s : State) : State := { s with status := stickyCleared s.status }

/-- The registers and tables that `CLEAR` returns to their reset values (46_control_commands R221), `STATUS` and
`ERR_INFO` aside. The buffers keep their contents (R222). -/
def clearTables (s : State) : State :=
  { s with
    freq := FreqTable.empty
    code := CodeTable.empty
    node := NodeTable.empty
    tree := Tree.none
    srcLen := 0
    artLen := 0
    dstLen := 0 }

/-! The `reset` input and answers. -/

/-- `reset` was asserted and released (70_reset_and_hazards R270): the reset state of 10_state R41, whatever the state was.
The capacities are the engine's own; what the host still will do, the answers already given and the draw counter are not
the engine's and stay. DESIGN CHOICE (entry 9), safe. -/
def resetInput (s : State) : State :=
  { State.resetWith s.caps with pending := s.pending, responses := s.responses, drawn := s.drawn }

/-- The current access is answered (20_memory R60). -/
def respond (r : Resp) (rdata : Word) (s : State) : State :=
  { s with responses := s.responses ++ [{ resp := r, rdata := rdata }] }

end Sys2Proof.Machine
end

