-- ==== Sys2Proof/Machine/Build.lean ====
section
/-! DEFINITION. BUILD, the TreeBuilder and its priority queue (42_build). -/

namespace Sys2Proof.Machine

/-- One entry (f, n) of the priority queue (42_build R134). -/
structure QEntry where
  freq : NodeFreq
  idx  : NodeIdx
  deriving DecidableEq, Repr

/-- The queue and the nodes made so far, in index order; `next` of the pseudocode is the number of nodes (10_state R38,
42_build R145). -/
structure Builder where
  queue : List QEntry
  nodes : List Node
  deriving DecidableEq, Repr

/-- The order of the queue (42_build R135): by frequency, then by node index, both unsigned. -/
def QEntry.before (a b : QEntry) : Bool :=
  a.freq.toNat < b.freq.toNat || (a.freq.toNat == b.freq.toNat && a.idx.toNat < b.idx.toNat)

/-- `pq_insert(Q, f, n)` (42_build R134). The queue is a set: the list's order means nothing. -/
def pqInsert (q : List QEntry) (f : NodeFreq) (n : NodeIdx) : List QEntry := { freq := f, idx := n } :: q

/-- `pq_pop_min(Q)` (42_build R135): the least entry and the rest, for a queue that is not empty. -/
def pqPopMin : List QEntry → Option (QEntry × List QEntry)
  | [] => none
  | e :: q =>
    match pqPopMin q with
    | none => some (e, [])
    | some (m, rest) => if e.before m then some (e, q) else some (m, e :: rest)

/-- The leaf of symbol `x` with count `f` (42_build R130). -/
def leafNode (x : Byte) (f : Word) : Node :=
  { valid := true, leaf := true, sym := x, nfreq := f.setWidth 40, left := 0, right := 0 }

/-- The internal node over the first-popped `a` and the second-popped `b` (42_build R136). -/
def mergedNode (a b : QEntry) : Node :=
  { valid := true, leaf := false, sym := 0, nfreq := a.freq + b.freq, left := a.idx, right := b.idx }

/-- `NODE[next] <- x; pq_insert(Q, x.NFREQ, next); next <- next + 1` (42_build R130). -/
def Builder.add (b : Builder) (x : Node) : Builder :=
  { queue := pqInsert b.queue x.nfreq (BitVec.ofNat 9 b.nodes.length), nodes := b.nodes ++ [x] }

/-- Seeding (42_build R133): one leaf per symbol with a count that is not 0, in ascending symbol value. -/
def seed (t : FreqTable) : Builder :=
  allSymbols.foldl (fun b x => if symGet t x = 0#32 then b else b.add (leafNode x (symGet t x))) { queue := [], nodes := [] }

/-- The merge loop (42_build R136): at most `fuel` merges, ending when the queue holds one entry. -/
def mergeLoop : Nat → Builder → Builder
  | 0, b => b
  | fuel + 1, b =>
    match pqPopMin b.queue with
    | none => b
    | some (x, q1) =>
      match pqPopMin q1 with
      | none => b
      | some (y, q2) => mergeLoop fuel (Builder.add { queue := q2, nodes := b.nodes } (mergedNode x y))

/-- The seeded builder after all its merges. Each merge makes the queue one shorter (42_build R137), so as many rounds as
the queue has entries are enough. -/
def mergeAll (b : Builder) : Builder := mergeLoop b.queue.length b

/-- The node memory holding `l` from index 0 and zero entries above (42_build R132). -/
def nodeTableOf (l : List Node) : NodeTable := Vector.ofFn fun i => l.getD i.val Node.zero

/-- `TREE` at the end of the command (42_build R140): the root is the entry left in the queue. The queue of a table that is
not empty always holds one, so the `none` arm is never taken by `BUILD`. -/
def treeOf (k : Nat) (b : Builder) : Tree :=
  match pqPopMin b.queue with
  | none => Tree.none
  | some (r, _) =>
    { valid := true, nnodes := BitVec.ofNat 10 b.nodes.length, nleaf := BitVec.ofNat 9 k, root := r.idx }

/-- `BUILD` (42_build R130). -/
def execBuild (s : State) : Host.Outcome State Fault Refusal :=
  let leaves := seed s.freq
  let k := leaves.nodes.length
  if k = 0 then
    .next (raise (opcodeOf .build) .emptyAlphabet 0 { s with node := NodeTable.empty, tree := Tree.none })
  else
    let b := mergeAll leaves
    .next (finish (opcodeOf .build) .ok 0 { s with node := nodeTableOf b.nodes, tree := treeOf k b })

end Sys2Proof.Machine
end

