-- ==== Sys2Proof/Machine/Codes.lean ====
section
/-! DEFINITION. CODES, the CodeTableBuilder (43_codes). -/

namespace Sys2Proof.Machine

/-- `walk(n, c)` (43_codes R160, R162): depth-first, left with "0" before right with "1". `fuel` bounds the depth; a walk that
would pass it, or meets index 511, has no result. -/
def walk (t : NodeTable) : Nat → NodeIdx → Bits → CodeTable → Option CodeTable
  | 0, _, _, _ => none
  | fuel + 1, n, c, ct =>
    match nodeGet t n with
    | none => none
    | some x =>
      if x.leaf then some (setCode ct x.sym c)
      else
        match walk t fuel x.left (c ++ [false]) ct with
        | none => none
        | some ct' => walk t fuel x.right (c ++ [true]) ct'

/-- The code table of a tree with root `r` (43_codes R160): a root that is a leaf gets "0" (R163), any other is walked. The
depth never exceeds 255 (R165), which is 256 levels of nodes. -/
def codesOf (t : NodeTable) (r : NodeIdx) : Option CodeTable :=
  match nodeGet t r with
  | none => none
  | some x => if x.leaf then some (setCode CodeTable.empty x.sym [false]) else walk t 256 r [] CodeTable.empty

/-- `CODES` (43_codes R160). With no tree the table is empty and the result `OK` (R164). -/
def execCodes (s : State) : Host.Outcome State Fault Refusal :=
  if s.tree.valid then
    match codesOf s.node s.tree.root with
    | some ct => .next (finish (opcodeOf .codes) .ok 0 { s with code := ct })
    | none => .fault .malformedTree
  else .next (finish (opcodeOf .codes) .ok 0 { s with code := CodeTable.empty })

end Sys2Proof.Machine
end

