-- ==== Sys2Proof/Machine/Control.lean ====
section
/-! DEFINITION. The control commands NOP, CLEAR and ECLR (46_control_commands). -/

namespace Sys2Proof.Machine

/-- `NOP` (46_control_commands R220). -/
def execNop (s : State) : Host.Outcome State Fault Refusal := .next (finish (opcodeOf .nop) .ok 0 s)

/-- `CLEAR` (46_control_commands R221, R222). -/
def execClear (s : State) : Host.Outcome State Fault Refusal :=
  .next (finish (opcodeOf .clear) .ok 0 (clearSticky (clearTables s)))

/-- `ECLR` (46_control_commands R223). -/
def execEclr (s : State) : Host.Outcome State Fault Refusal :=
  .next (finish (opcodeOf .eclr) .ok 0 (clearSticky s))

end Sys2Proof.Machine
end

