-- ==== Sys2Proof/Machine/Count.lean ====
section
/-! DEFINITION. COUNT, the FrequencyCounter (41_count). -/

namespace Sys2Proof.Machine

/-- `FREQ[x] <- FREQ[x] + 1` (41_count R120). The sum never wraps while `SRC_LEN ≤ 2^26` (R121). -/
def countOne (t : FreqTable) (x : Byte) : FreqTable := symSet t x (symGet t x + 1)

/-- The FrequencyTable of a sequence, built fresh (41_count R120). -/
def countAll (xs : List Byte) : FreqTable := xs.foldl countOne FreqTable.empty

/-- `COUNT` (41_count R120). Entries of `SRC` without a specified value count as free values (R125). -/
def execCount (s : State) : Host.Outcome State Fault Refusal :=
  let input := s.src.drawAll 0 s.srcLen.toNat s.drawn
  .next (finish (opcodeOf .count) .ok 0 { s with freq := countAll input.1, drawn := input.2 })

end Sys2Proof.Machine
end

