-- ==== Sys2Proof/Machine/Pack.lean ====
section
/-! DEFINITION. PACK, the BitPacker (44_pack). -/

namespace Sys2Proof.Machine

/-- The smallest index whose symbol has no valid code (44_pack R176). -/
def firstMiss (t : CodeTable) (xs : List Byte) : Option Nat := xs.findIdx? fun x => !(symGet t x).valid

/-- B: the codes of the stream's symbols in stream order (44_pack R177). -/
def concatCodes (t : CodeTable) (xs : List Byte) : Bits := xs.flatMap fun x => codeBits (symGet t x)

/-- The artifact of a bit-string: header byte, then the packed bytes of B followed by the padding (44_pack R179 to R181). -/
def artifactOf (b : Bits) : List Byte :=
  BitVec.ofNat 8 (padFor b.length) ::
    bytesOfBits ((b.length + padFor b.length) / 8) (b ++ zeros (padFor b.length))

/-- The outputs of a failed `PACK` (44_pack R183): `ART_LEN` 0 and every entry of `ART` unspecified. -/
def packFailed (s : State) : State :=
  { s with artLen := 0, art := (s.art.scramble s.drawn).1, drawn := (s.art.scramble s.drawn).2 }

/-- `PACK` of the stream `xs` (44_pack R175). -/
def packStream (xs : List Byte) (s : State) : State :=
  match firstMiss s.code xs with
  | some i => raise (opcodeOf .pack) .lookupMiss (BitVec.ofNat 32 i) (packFailed s)
  | none =>
    let out := artifactOf (concatCodes s.code xs)
    if s.caps.artCap < out.length then raise (opcodeOf .pack) .overflow 0 (packFailed s)
    else
      finish (opcodeOf .pack) .ok 0
        { s with art := s.art.writeAll 0 out, artLen := BitVec.ofNat 32 out.length }

/-- `PACK` (44_pack R175). -/
def execPack (s : State) : Host.Outcome State Fault Refusal :=
  let input := s.src.drawAll 0 s.srcLen.toNat s.drawn
  .next (packStream input.1 { s with drawn := input.2 })

end Sys2Proof.Machine
end

