-- ==== Sys2Proof/Machine/Unpack.lean ====
section
/-! DEFINITION. UNPACK, the BitUnpacker (45_unpack). -/

namespace Sys2Proof.Machine

/-- The decoding walk (45_unpack R200): from candidate `cand`, the symbols emitted over the bits and the candidate left at
the end. -/
def decodeWalk (t : CodeTable) : Bits → Bits → List Byte × Bits
  | cand, [] => ([], cand)
  | cand, b :: bs =>
    match lookup t (cand ++ [b]) with
    | some x =>
      let r := decodeWalk t [] bs
      (x :: r.1, r.2)
    | none => decodeWalk t (cand ++ [b]) bs

/-- The bits to decode: the payload's bits without the last `pad` (45_unpack R195, R206). -/
def payloadBits (payload : List Byte) (pad : Nat) : Bits :=
  (bitsOfBytes payload).take (8 * payload.length - pad)

/-- The outputs of a failed `UNPACK` (45_unpack R204): `DST_LEN` 0 and every entry of `DST` unspecified. -/
def unpackFailed (s : State) : State :=
  { s with dstLen := 0, dst := (s.dst.scramble s.drawn).1, drawn := (s.dst.scramble s.drawn).2 }

/-- `fail(X, info)` (45_unpack R195, R204): the failed outputs, and the error. -/
def unpackFail (x : ResultCode) (info : Word) (s : State) : State :=
  raise (opcodeOf .unpack) x info (unpackFailed s)

/-- The walk over the payload and what it leaves (45_unpack R200 to R203). -/
def unpackPayload (pad : Nat) (payload : List Byte) (s : State) : State :=
  let r := decodeWalk s.code [] (payloadBits payload pad)
  if r.2 ≠ [] then unpackFail .malformedStream 0 s
  else if s.caps.dstCap < r.1.length then unpackFail .overflow 1 s
  else
    finish (opcodeOf .unpack) .ok 0
      { s with dst := s.dst.writeAll 0 r.1, dstLen := BitVec.ofNat 32 r.1.length }

/-- `UNPACK` of the artifact `xs` (45_unpack R195): the header checks in their order (R196, R197, R198), then the payload. -/
def unpackStream (xs : List Byte) (s : State) : State :=
  match xs with
  | [] => unpackFail .malformedStream 1 s
  | header :: payload =>
    if 7 < header.toNat then unpackFail .malformedStream 2 s
    else if 8 * payload.length < header.toNat then unpackFail .malformedStream 3 s
    else unpackPayload header.toNat payload s

/-- `UNPACK` (45_unpack R195). -/
def execUnpack (s : State) : Host.Outcome State Fault Refusal :=
  let input := s.art.drawAll 0 s.artLen.toNat s.drawn
  .next (unpackStream input.1 { s with drawn := input.2 })

end Sys2Proof.Machine
end

