-- ==== Sys2Proof/Machine/HostPort.lean ====
section
/-! DEFINITION. The host port (20_memory): `HostRead`, `HostWrite` and `reset`. The run of a command is given as an argument,
so that this file stands before the dispatch. -/

namespace Sys2Proof.Machine

/-- What a control register reads as (10_state R24 to R31). -/
def readReg (r : Reg) (s : State) : Word :=
  match r with
  | .cmd => 0
  | .status => s.status.word
  | .errInfo => s.errInfo
  | .srcLen => s.srcLen
  | .artLen => s.artLen
  | .dstLen => s.dstLen
  | .tree => s.tree.word
  | .srcCap => BitVec.ofNat 32 s.caps.srcCap
  | .artCap => BitVec.ofNat 32 s.caps.artCap
  | .dstCap => BitVec.ofNat 32 s.caps.dstCap

/-- A buffer entry as a host word, and the draws then made (20_memory R65). -/
def readBuffer (m : Memory) (i d : Nat) : Word × Nat := ((m.draw i d).1.setWidth 32, (m.draw i d).2)

/-- The word a mapped address reads as, and the draws then made (20_memory R65). Only an unspecified buffer entry draws. -/
def readTarget (t : Target) (s : State) : Word × Nat :=
  match t with
  | .reg r => (readReg r s, s.drawn)
  | .freq x => (symGet s.freq x, s.drawn)
  | .node n w => (((nodeGet s.node n).getD Node.zero).word w, s.drawn)
  | .code x w => ((symGet s.code x).word w, s.drawn)
  | .src i => readBuffer s.src i s.drawn
  | .art i => readBuffer s.art i s.drawn
  | .dst i => readBuffer s.dst i s.drawn

/-- The access is answered `ERROR` and changes nothing (20_memory R62, R63). -/
def busError (s : State) : State := respond .error 0 s

/-- `HostRead(addr)` (20_memory R62). -/
def hostRead (a : Word) (s : State) : State :=
  if aligned a then
    match decodeAddr s.caps a.toNat with
    | none => busError s
    | some t => respond .okay (readTarget t s).1 { s with drawn := (readTarget t s).2 }
  else busError s

/-- A length register takes a value up to the capacity and refuses any other (10_state R27, R28). -/
def lengthFits (v : Word) (cap : Nat) : Bool := v.toNat ≤ cap

/-- What a write to a control register other than `CMD` stores (20_memory R65, R68); `none` is a refused write. -/
def writeReg (r : Reg) (w : Word) (s : State) : Option State :=
  match r with
  | .srcLen => if lengthFits w s.caps.srcCap then some { s with srcLen := w } else none
  | .artLen => if lengthFits w s.caps.artCap then some { s with artLen := w } else none
  | .cmd => none
  | .status => none
  | .errInfo => none
  | .dstLen => none
  | .tree => none
  | .srcCap => none
  | .artCap => none
  | .dstCap => none

/-- What a write to a mapped address other than `CMD` stores (20_memory R65, R68); `none` is a refused write. -/
def writeTarget (t : Target) (w : Word) (s : State) : Option State :=
  match t with
  | .reg r => writeReg r w s
  | .freq x => some { s with freq := symSet s.freq x w }
  | .node _ _ => none
  | .code _ _ => none
  | .src i => some { s with src := s.src.write i (w.extractLsb' 0 8) }
  | .art i => some { s with art := s.art.write i (w.extractLsb' 0 8) }
  | .dst _ => none

/-- The `CMD` write is answered `OKAY` once its command has ended (20_memory R63, 60_exceptions R245). -/
def answerCommand (o : Host.Outcome State Fault Refusal) : Host.Outcome State Fault Refusal :=
  match o with
  | .next s => .next (respond .okay 0 s)
  | .fault f => .fault f
  | .refused r => .refused r

/-- A write that is no command: stored and answered `OKAY`, or answered `ERROR` (20_memory R63). -/
def storeWrite (t : Target) (w : Word) (s : State) : State :=
  match writeTarget t w s with
  | some s' => respond .okay 0 s'
  | none => busError s

/-- `HostWrite(addr, wdata)` (20_memory R63). `run` runs the command a word encodes to its end. -/
def hostWrite (run : Word → State → Host.Outcome State Fault Refusal) (a w : Word) (s : State) :
    Host.Outcome State Fault Refusal :=
  if aligned a then
    match decodeAddr s.caps a.toNat with
    | none => .next (busError s)
    | some t => if t = .reg .cmd then answerCommand (run w s) else .next (storeWrite t w s)
  else .next (busError s)

/-- The engine's answer to one input. -/
def answer (run : Word → State → Host.Outcome State Fault Refusal) (x : HostInput) (s : State) :
    Host.Outcome State Fault Refusal :=
  match x with
  | .read a => .next (hostRead a s)
  | .write a w => hostWrite run a w s
  | .reset => .next (resetInput s)

/-- The address of `CMD` (10_state R23). -/
def cmdAddr : Word := 0x00000000#32

/-- The host's next input is a write of `w` to `CMD`. -/
def withCommand (w : Word) (s : State) : State := { s with pending := .write cmdAddr w :: s.pending }

end Sys2Proof.Machine
end

