-- ==== Sys2Proof/Machine/Step.lean ====
section
/-! DEFINITION. One step: the engine answers the host's next input (10_state R20). -/

namespace Sys2Proof.Machine

/-- A write of `w` to `CMD` runs the command `w` encodes to its end, or ends at once with `IllegalCommand`
(10_state R24, 30_encoding R94). -/
def runCommand (w : Word) (s : State) : Host.Outcome State Fault Refusal :=
  match decode w with
  | .ok i => exec i s
  | .error _ => .next (illegalCommand w s)

/-- One step. Between host accesses nothing changes (10_state R20): with no input left the state stays as it is. -/
def step (s : State) : Host.Outcome State Fault Refusal :=
  match s.pending with
  | [] => .next s
  | x :: rest => answer runCommand x { s with pending := rest }

/-- `s` with the command word whose table bits are `w` as the very next thing the host writes to `CMD`. The engine fetches
nothing (10_state R21): a command arrives as the data of a host write. -/
def State.withFetchWord (s : State) (nbits w : Nat) : State := withCommand (tableWord nbits w) s

end Sys2Proof.Machine
end

