-- ==== Sys2Proof/Safety.lean ====
section
/-! DEFINITION. What claims are stated with: the invariants of 10_state R40, what it means that a buffer holds a sequence
(70_reset_and_hazards R275), and the tree and code words as paths (43_codes R162). -/

namespace Sys2Proof.Machine

/-- The entries of `m` from index 0 up hold `xs`: each was written since reset (70_reset_and_hazards R275). -/
def Memory.holds (m : Memory) (xs : List Byte) : Prop := ∀ i, (h : i < xs.length) → m.read i = some xs[i]

/-- The buffer is in canonical form and every entry exists: its index is below the capacity (10_state R35 to R37). -/
def BufferOk (m : Memory) (cap : Nat) : Prop := Memory.wf m ∧ ∀ c ∈ m, c.1 < cap

/-- 10_state R40 item 1. -/
def LengthsOk (s : State) : Prop :=
  s.srcLen.toNat ≤ s.caps.srcCap ∧ s.artLen.toNat ≤ s.caps.artCap ∧ s.dstLen.toNat ≤ s.caps.dstCap

/-- Node `n`, and the zero node where there is none. -/
def nodeAt (t : NodeTable) (n : Nat) : Node := (t[n]?).getD Node.zero

/-- A valid leaf with a count from 1 to 2^32 − 1 and no children (10_state R33, R40 item 4). -/
def LeafOk (x : Node) : Prop :=
  x.valid = true ∧ x.leaf = true ∧ x.left = 0 ∧ x.right = 0 ∧ 1 ≤ x.nfreq.toNat ∧ x.nfreq.toNat ≤ 4294967295

/-- Node `n` is a valid internal node with two different children at smaller indices and the sum of their frequencies
(10_state R33, R40 item 4). -/
def InternalOk (t : NodeTable) (n : Nat) : Prop :=
  let x := nodeAt t n
  x.valid = true ∧ x.leaf = false ∧ x.sym = 0 ∧ x.left.toNat < n ∧ x.right.toNat < n ∧ x.left ≠ x.right ∧
    x.nfreq.toNat = (nodeAt t x.left.toNat).nfreq.toNat + (nodeAt t x.right.toNat).nfreq.toNat

/-- Node `n` is a child of node `m`. -/
def IsChild (t : NodeTable) (n m : Nat) : Prop := (nodeAt t m).left.toNat = n ∨ (nodeAt t m).right.toNat = n

/-- A tree with `k` leaves, as 10_state R40 item 4 describes it. -/
structure TreeShape (t : Tree) (nodes : NodeTable) (k : Nat) : Prop where
  leaf_count : 1 ≤ k ∧ k ≤ 256
  tree_reg : t.valid = true ∧ t.nleaf.toNat = k ∧ t.nnodes.toNat = 2 * k - 1 ∧ t.root.toNat = 2 * k - 2
  leaves : ∀ n, n < k → LeafOk (nodeAt nodes n)
  ascending : ∀ m n, m < n → n < k → (nodeAt nodes m).sym.toNat < (nodeAt nodes n).sym.toNat
  internal : ∀ n, k ≤ n → n < 2 * k - 1 → InternalOk nodes n
  one_parent : ∀ n, n < 2 * k - 2 → ∃! m, (k ≤ m ∧ m < 2 * k - 1) ∧ IsChild nodes n m
  root_no_child : ∀ m, k ≤ m → m < 2 * k - 1 → ¬ IsChild nodes (2 * k - 2) m
  rest_zero : ∀ n, 2 * k - 1 ≤ n → n < 511 → nodeAt nodes n = Node.zero

/-- 10_state R40 items 3 and 4: no tree and zero nodes, or a tree with `TREE.NLEAF` leaves. -/
def TreeOk (s : State) : Prop :=
  (s.tree.valid = false → s.tree = Tree.none ∧ s.node = NodeTable.empty) ∧
    (s.tree.valid = true → TreeShape s.tree s.node s.tree.nleaf.toNat)

/-- One code entry in form: all zero when invalid; a length from 1 and zero bits below the code when valid (10_state R34,
R40 item 5). That the length is at most 255 is its width. -/
def CodeEntryOk (e : CodeEntry) : Prop :=
  (e.valid = false → e = CodeEntry.zero) ∧
    (e.valid = true → 1 ≤ e.len.toNat ∧ ∀ i, e.len.toNat ≤ i → i ≤ 255 → e.cbits.getLsbD (255 - i) = false)

/-- No valid code is a prefix of another symbol's valid code. -/
def PrefixFree (t : CodeTable) : Prop :=
  ∀ x y, x ≠ y → (symGet t x).valid = true → (symGet t y).valid = true →
    ¬ codeBits (symGet t x) <+: codeBits (symGet t y)

/-- 10_state R40 item 5. -/
def CodeOk (t : CodeTable) : Prop := (∀ x, CodeEntryOk (symGet t x)) ∧ PrefixFree t

/-- The invariants of 10_state R40, with the ranges of the capacities and the form of the buffers. Item 2 is the shape of
the fields of `STATUS`. -/
structure State.Inv (s : State) : Prop where
  caps_ok : s.caps.wellFormed = true
  lengths : LengthsOk s
  tree_ok : TreeOk s
  code_ok : CodeOk s.code
  src_ok : BufferOk s.src s.caps.srcCap
  art_ok : BufferOk s.art s.caps.artCap
  dst_ok : BufferOk s.dst s.caps.dstCap

/-- The node reached from `n` along a bit-string, 0 to the left child and 1 to the right (43_codes R162); `none` where the
path leaves a leaf. -/
def follow (t : NodeTable) (n : Nat) : Bits → Option Nat
  | [] => some n
  | b :: bs =>
    if (nodeAt t n).leaf then none
    else follow t (if b then (nodeAt t n).right.toNat else (nodeAt t n).left.toNat) bs

/-- The symbols in the table, ascending (10_state R32, 42_build R133). -/
def presentSymbols (t : FreqTable) : List Byte := allSymbols.filter fun x => symGet t x ≠ 0#32

/-- Node `a` comes before node `b` in the queue's order: by frequency, then by index (42_build R135). -/
def NodeBefore (t : NodeTable) (a b : Nat) : Prop :=
  (nodeAt t a).nfreq.toNat < (nodeAt t b).nfreq.toNat ∨
    ((nodeAt t a).nfreq.toNat = (nodeAt t b).nfreq.toNat ∧ a < b)

/-- Any binary tree with weighted leaves, what BUILD's tree is compared with (42_build R144). -/
inductive WeightTree where
  | leaf (weight : Nat)
  | fork (left right : WeightTree)
  deriving DecidableEq, Repr

/-- The weights of the leaves, left to right. -/
def WeightTree.leaves : WeightTree → List Nat
  | .leaf w => [w]
  | .fork l r => l.leaves ++ r.leaves

/-- The weighted external path length below depth `d`: each leaf's weight times its depth (42_build R144). -/
def WeightTree.cost : WeightTree → Nat → Nat
  | .leaf w, d => w * d
  | .fork l r, d => l.cost (d + 1) + r.cost (d + 1)

/-- The bits a table's codes take for every counted symbol: Σ FREQ · LEN (44_pack R178). -/
def encodedBits (f : FreqTable) (t : CodeTable) : Nat :=
  (allSymbols.map fun x => (symGet f x).toNat * (symGet t x).len.toNat).sum

/-- The addresses in none of the regions of the map, as 20_memory R66 lists them. -/
def Unmapped (c : Caps) (a : Nat) : Prop :=
  (0x28 ≤ a ∧ a < 0x400) ∨ (0x800 ≤ a ∧ a < 0x2000) ∨ (0x3FF0 ≤ a ∧ a < 0x4000) ∨ (0x8000 ≤ a ∧ a < 0x10000000) ∨
    (0x10000000 + 4 * c.srcCap ≤ a ∧ a < 0x20000000) ∨ (0x20000000 + 4 * c.artCap ≤ a ∧ a < 0x30000000) ∨
    (0x30000000 + 4 * c.dstCap ≤ a ∧ a < 0x40000000) ∨ 0x40000000 ≤ a

/-- The addresses no host write reaches (20_memory R68). -/
def ReadOnly (c : Caps) (a : Nat) : Prop :=
  a ∈ [0x04, 0x08, 0x14, 0x18, 0x1C, 0x20, 0x24] ∨ (0x2000 ≤ a ∧ a < 0x3FF0) ∨ (0x4000 ≤ a ∧ a < 0x8000) ∨
    (0x30000000 ≤ a ∧ a < 0x30000000 + 4 * c.dstCap)

end Sys2Proof.Machine
end

