-- ==== Sys2Proof/Certificates/Slice0/Obligations.lean ====
section
/-! DEFINITION. The statements for the provers, one per rule or group of rules of the spec. -/

open Sys2Proof Sys2Proof.Machine

/-! Command words. -/

/-- 30_encoding R92, R93: a word decodes to a command exactly when it is that command's word, so decode and encode agree
both ways and no word means two commands. -/
def Obligations.DecodeIffEncoded : Prop := ∀ (w : Word) (i : Instr), decode w = .ok i ↔ w = encode i

/-- 30_encoding R93: decoding is total, refuses a word with reserved bits first, then one with an opcode above 7, and accepts
every other. -/
def Obligations.IllegalWordsByName : Prop :=
  ∀ w : Word,
    (decode w = .error .reservedBits ↔ w.extractLsb' 8 24 ≠ 0#24) ∧
    (decode w = .error .unassignedOpcode ↔ w.extractLsb' 8 24 = 0#24 ∧ 7 < (w.extractLsb' 0 8).toNat) ∧
    ((∃ i, decode w = .ok i) ↔ w.extractLsb' 8 24 = 0#24 ∧ (w.extractLsb' 0 8).toNat ≤ 7)

/-- 30_encoding R92: the eight words of the opcode map decode to their commands, and two words beside them do not. -/
def Obligations.OpcodeMapWords : Prop :=
  decode 0x00000000#32 = .ok .nop ∧ decode 0x00000001#32 = .ok .clear ∧ decode 0x00000002#32 = .ok .count ∧
  decode 0x00000003#32 = .ok .build ∧ decode 0x00000004#32 = .ok .codes ∧ decode 0x00000005#32 = .ok .pack ∧
  decode 0x00000006#32 = .ok .unpack ∧ decode 0x00000007#32 = .ok .eclr ∧
  decode 0x00000008#32 = .error .unassignedOpcode ∧ decode 0x00000102#32 = .error .reservedBits

/-! The step. -/

/-- A step whose next input is a write of a command's word to CMD (address 0) is exec of that command, from the state with
that input taken, and the write is then answered OKAY with read data 0 (10_state R24, 20_memory R63). -/
def Obligations.StepRunsDecodedCommand : Prop :=
  ∀ (s : State) (w : Word) (i : Instr) (rest : List HostInput),
    s.pending = .write 0x00000000#32 w :: rest → decode w = .ok i →
    step s = match exec i { s with pending := rest } with
      | .next t => .next { t with responses := t.responses ++ [⟨.okay, 0⟩] }
      | .fault f => .fault f
      | .refused r => .refused r

/-- 60_exceptions R244: a word that is no command runs nothing; its whole effect is IllegalCommand, and the write is answered
OKAY. -/
def Obligations.IllegalCommandEffect : Prop :=
  ∀ (s : State) (w : Word) (e : DecodeError) (rest : List HostInput),
    s.pending = .write 0x00000000#32 w :: rest → decode w = .error e →
    step s = .next { s with
      pending := rest
      status := ⟨.illegalCommand, true, w.extractLsb' 0 8⟩
      errInfo := w
      responses := s.responses ++ [⟨.okay, 0⟩] }

/-- 60_exceptions R245: how a command ends, for every word whose run goes on: RESULT and ERR_INFO go together for OK, LASTOP
is the low byte of the word, and STICKY is set by an error and kept by OK, but for CLEAR and ECLR, which clear it. -/
def Obligations.CommandEndRecord : Prop :=
  ∀ (w : Word) (s t : State), runCommand w s = .next t →
    t.status.lastop = w.extractLsb' 0 8 ∧
    (t.status.result = .ok → t.errInfo = 0) ∧
    (t.status.result ≠ .ok → t.status.sticky = true) ∧
    (t.status.result = .ok →
      t.status.sticky = if w = encode .clear ∨ w = encode .eclr then false else s.status.sticky)

/-- 60_exceptions R251: STICKY returns to 0 only by CLEAR, ECLR or reset. -/
def Obligations.StickyClearedOnly : Prop :=
  ∀ s t : State, step s = .next t → s.status.sticky = true → t.status.sticky = false →
    ∃ rest, s.pending = .reset :: rest ∨ s.pending = .write 0x00000000#32 (encode .clear) :: rest ∨
      s.pending = .write 0x00000000#32 (encode .eclr) :: rest

/-! Reset. -/

/-- 10_state R41, 70_reset_and_hazards R270: the state after reset, for every choice of the capacities. -/
def Obligations.ResetValues : Prop :=
  State.reset = State.resetWith ⟨65536, 65537, 65536⟩ ∧
  ∀ c : Caps,
    let s := State.resetWith c
    s.caps = c ∧ s.status.word = 0#32 ∧ s.errInfo = 0#32 ∧ s.srcLen = 0#32 ∧ s.artLen = 0#32 ∧ s.dstLen = 0#32 ∧
    s.tree.word = 0#32 ∧ (∀ x, symGet s.freq x = 0#32) ∧ (∀ n, nodeAt s.node n = Node.zero) ∧
    (∀ x, symGet s.code x = CodeEntry.zero) ∧ (∀ i, s.src.read i = none) ∧ (∀ i, s.art.read i = none) ∧
    ∀ i, s.dst.read i = none

/-- 70_reset_and_hazards R270: an assertion of reset leaves the reset state, whatever the state was. What stays (the
capacities, the inputs still to come, the answers given, the draw counter) is the model's (entry 9). -/
def Obligations.ResetInputRestores : Prop :=
  ∀ (s : State) (rest : List HostInput), s.pending = .reset :: rest →
    step s = .next { State.resetWith s.caps with pending := rest, responses := s.responses, drawn := s.drawn }

/-- 70_reset_and_hazards R272: after reset the engine waits, and every command is defined there, with the results the rule
gives. That waiting is a step that changes nothing while no input is pending is the model's form (entry 5). -/
def Obligations.CommandsFromReset : Prop :=
  ∀ c : Caps, c.wellFormed = true →
    let s := State.resetWith c
    step s = .next s ∧
    (∃ t, exec .nop s = .next t ∧ t.status.result = .ok) ∧
    (∃ t, exec .clear s = .next t ∧ t.status.result = .ok) ∧
    (∃ t, exec .count s = .next t ∧ t.status.result = .ok ∧ ∀ x, symGet t.freq x = 0#32) ∧
    (∃ t, exec .build s = .next t ∧ t.status.result = .emptyAlphabet) ∧
    (∃ t, exec .codes s = .next t ∧ t.status.result = .ok ∧ ∀ x, symGet t.code x = CodeEntry.zero) ∧
    (∃ t, exec .pack s = .next t ∧ t.status.result = .ok ∧ t.artLen = 1#32 ∧ t.art.read 0 = some 0x00#8) ∧
    (∃ t, exec .unpack s = .next t ∧ t.status.result = .malformedStream ∧ t.errInfo = 1#32) ∧
    (∃ t, exec .eclr s = .next t ∧ t.status.result = .ok)

/-! Bytes as bit-strings. -/

/-- 00_scope R10: the leftmost of eight bits is the most significant bit of their byte, bit i of a byte's bit-string is bit
7 − i of the byte, and a byte is the byte of its bit-string. -/
def Obligations.BytesMsbFirst : Prop :=
  (∀ b : Bits, b.length = 8 →
    (byteOf b).toNat = ((List.range 8).map fun i => (b.getD i false).toNat * 2 ^ (7 - i)).sum) ∧
  ∀ v : Byte, (bitsOf v).length = 8 ∧ (∀ i, i < 8 → (bitsOf v)[i]? = some (v.getLsbD (7 - i))) ∧ byteOf (bitsOf v) = v

/-! NOP, CLEAR, ECLR. -/

/-- 46_control_commands R220: NOP records that it ran and changes nothing else. -/
def Obligations.NopRecordsOnly : Prop :=
  ∀ s : State, exec .nop s = .next { s with status := ⟨.ok, s.status.sticky, 0x00#8⟩, errInfo := 0#32 }

/-- 46_control_commands R221, R222: after CLEAR, STATUS reads 0x0000_0100 and the state is the reset state but for LASTOP and
the buffers, which keep their contents. -/
def Obligations.ClearIsResetButBuffers : Prop :=
  ∀ s : State, ∃ t, exec .clear s = .next t ∧ t.status.word = 0x00000100#32 ∧
    t = { State.resetWith s.caps with
      status := ⟨.ok, false, 0x01#8⟩
      src := s.src
      art := s.art
      dst := s.dst
      pending := s.pending
      responses := s.responses
      drawn := s.drawn }

/-- 46_control_commands R223: after ECLR, STATUS reads 0x0000_0700, ERR_INFO is 0 and nothing else changes. -/
def Obligations.EclrClearsErrorRecord : Prop :=
  ∀ s : State, ∃ t, exec .eclr s = .next t ∧ t.status.word = 0x00000700#32 ∧
    t = { s with status := ⟨.ok, false, 0x07#8⟩, errInfo := 0#32 }

/-! COUNT. -/

/-- 41_count R120: over a source that holds xs, COUNT writes each symbol's number of occurrences, the counts add up to
SRC_LEN, and nothing else changes but STATUS and ERR_INFO. -/
def Obligations.CountCountsOccurrences : Prop :=
  ∀ (s : State) (xs : List Byte), s.src.holds xs → s.srcLen.toNat = xs.length →
    ∃ f : FreqTable,
      exec .count s = .next { s with freq := f, status := ⟨.ok, s.status.sticky, 0x02#8⟩, errInfo := 0#32 } ∧
      (∀ x, (symGet f x).toNat = xs.count x) ∧
      (allSymbols.map fun x => (symGet f x).toNat).sum = s.srcLen.toNat

/-- COUNT completes from every state, entries nothing has written included (41_count R120, R125): the counts then come from
free values (entry 1), still add up to SRC_LEN, and nothing else changes. With SRC_LEN 0 the table is empty (R122). -/
def Obligations.CountCompletes : Prop :=
  ∀ s : State, ∃ (f : FreqTable) (d : Nat),
    exec .count s =
      .next { s with freq := f, drawn := d, status := ⟨.ok, s.status.sticky, 0x02#8⟩, errInfo := 0#32 } ∧
    (allSymbols.map fun x => (symGet f x).toNat).sum = s.srcLen.toNat ∧
    (s.srcLen = 0#32 → ∀ x, symGet f x = 0#32)

/-- 41_count R124: the table depends on the multiset of the source's symbols alone. -/
def Obligations.CountIgnoresOrder : Prop :=
  ∀ (s s' : State) (xs ys : List Byte), s.src.holds xs → s.srcLen.toNat = xs.length →
    s'.src.holds ys → s'.srcLen.toNat = ys.length → xs.Perm ys →
    ∃ t t', exec .count s = .next t ∧ exec .count s' = .next t' ∧ t.freq = t'.freq

/-! BUILD. -/

/-- 42_build R131: on the empty table BUILD reports EmptyAlphabet with ERR_INFO 0, no tree and zero nodes. -/
def Obligations.BuildOfEmptyTable : Prop :=
  ∀ s : State, (∀ x, symGet s.freq x = 0#32) →
    exec .build s = .next { s with
      node := NodeTable.empty
      tree := Tree.none
      status := ⟨.emptyAlphabet, true, 0x03#8⟩
      errInfo := 0#32 }

/-- 42_build R141: from every table that is not empty BUILD makes a tree of 10_state R40 item 4, changes nothing else but
STATUS and ERR_INFO, and a walk from the root reaches every node by exactly one path. -/
def Obligations.BuildMakesTree : Prop :=
  ∀ s : State, presentSymbols s.freq ≠ [] →
    ∃ (nodes : NodeTable) (tr : Tree),
      exec .build s =
        .next { s with node := nodes, tree := tr, status := ⟨.ok, s.status.sticky, 0x03#8⟩, errInfo := 0#32 } ∧
      TreeShape tr nodes (presentSymbols s.freq).length ∧
      ∀ n, n < tr.nnodes.toNat → ∃! c : Bits, follow nodes tr.root.toNat c = some n

/-- 42_build R133: leaf j is the j-th symbol of the table in ascending order with its count, and enters the queue as
(count, j). -/
def Obligations.BuildSeedsInSymbolOrder : Prop :=
  ∀ s : State, presentSymbols s.freq ≠ [] →
    (seed s.freq).queue.length = (presentSymbols s.freq).length ∧
    (∀ j, (h : j < (presentSymbols s.freq).length) →
      ⟨(symGet s.freq (presentSymbols s.freq)[j]).setWidth 40, BitVec.ofNat 9 j⟩ ∈ (seed s.freq).queue) ∧
    ∃ t, exec .build s = .next t ∧
      ∀ j, (h : j < (presentSymbols s.freq).length) →
        nodeAt t.node j =
          { valid := true
            leaf := true
            sym := (presentSymbols s.freq)[j]
            nfreq := (symGet s.freq (presentSymbols s.freq)[j]).setWidth 40
            left := 0
            right := 0 }

/-- 42_build R135: on a queue that is not empty, in which no two entries share an index, popping gives the one entry that is
before every other, by frequency and then by index, and leaves the rest. -/
def Obligations.PopMinIsLeast : Prop :=
  ∀ q : List QEntry, q ≠ [] → (q.map QEntry.idx).Nodup →
    ∃ e rest, pqPopMin q = some (e, rest) ∧ q.Perm (e :: rest) ∧
      ∀ x ∈ rest, e.freq.toNat < x.freq.toNat ∨ (e.freq.toNat = x.freq.toNat ∧ e.idx.toNat < x.idx.toNat)

/-- 42_build R136 (with R135): the tree is the greedy one. Each internal node's left child comes before its right child in
the queue's order, and the right child before every other node that was in the queue when they were merged. -/
def Obligations.BuildMergesTwoLeast : Prop :=
  ∀ s : State, presentSymbols s.freq ≠ [] →
    ∃ t, exec .build s = .next t ∧
      ∀ n, (presentSymbols s.freq).length ≤ n → n < t.tree.nnodes.toNat →
        let a := (nodeAt t.node n).left.toNat
        let b := (nodeAt t.node n).right.toNat
        NodeBefore t.node a b ∧
        ∀ c, c < n → c ≠ a → c ≠ b →
          (∀ m, (presentSymbols s.freq).length ≤ m → m < n → ¬ IsChild t.node c m) → NodeBefore t.node b c

/-- 42_build R145: after j merges there are k + j nodes, none of which a later merge changes, and the queue holds exactly
one entry for each node that is not yet a child. -/
def Obligations.QueueAfterMerges : Prop :=
  ∀ (f : FreqTable) (j : Nat), j + 1 ≤ (presentSymbols f).length →
    let k := (presentSymbols f).length
    let b := mergeLoop j (seed f)
    b.nodes.length = k + j ∧ b.queue.length = k - j ∧ b.nodes <+: (mergeAll (seed f)).nodes ∧
    (b.queue.map QEntry.idx).Nodup ∧
    ∀ e : QEntry, e ∈ b.queue ↔
      e.idx.toNat < k + j ∧ e.freq = (nodeAt (nodeTableOf b.nodes) e.idx.toNat).nfreq ∧
      ∀ m, k ≤ m → m < k + j → ¬ IsChild (nodeTableOf b.nodes) e.idx.toNat m

/-- 42_build R139: with exactly one symbol in the table NODE[0] is its leaf and the root, TREE has VALID 1, NNODES 1, NLEAF 1
and ROOT 0 and reads 0x8004_0200, and the result is OK. -/
def Obligations.BuildOfOneSymbol : Prop :=
  ∀ (s : State) (x : Byte), presentSymbols s.freq = [x] →
    ∃ t, exec .build s = .next t ∧ t.status.result = .ok ∧
      t.tree = { valid := true, nnodes := 1, nleaf := 1, root := 0 } ∧ t.tree.word = 0x80040200#32 ∧
      nodeAt t.node 0 =
        { valid := true, leaf := true, sym := x, nfreq := (symGet s.freq x).setWidth 40, left := 0, right := 0 } ∧
      ∀ n, 1 ≤ n → nodeAt t.node n = Node.zero

/-- 42_build R142: no sum wraps. The root's frequency is the sum of all counts, at most 256 · (2^32 − 1) and below 2^40;
every internal node's is exactly the sum of its children's; every other node's is smaller than the root's. -/
def Obligations.BuildSumsExact : Prop :=
  ∀ s : State, presentSymbols s.freq ≠ [] →
    ∃ t, exec .build s = .next t ∧
      let root := (nodeAt t.node t.tree.root.toNat).nfreq.toNat
      root = (allSymbols.map fun x => (symGet s.freq x).toNat).sum ∧
      root ≤ 256 * (2 ^ 32 - 1) ∧ 256 * (2 ^ 32 - 1) < 2 ^ 40 ∧
      (∀ n, n < t.tree.nnodes.toNat → (nodeAt t.node n).leaf = false →
        (nodeAt t.node n).nfreq.toNat =
          (nodeAt t.node (nodeAt t.node n).left.toNat).nfreq.toNat +
          (nodeAt t.node (nodeAt t.node n).right.toNat).nfreq.toNat) ∧
      (∀ n, n < t.tree.nnodes.toNat → (nodeAt t.node n).leaf = true → (nodeAt t.node n).nfreq.toNat < 2 ^ 32) ∧
      ∀ n, n < t.tree.nnodes.toNat → n ≠ t.tree.root.toNat → (nodeAt t.node n).nfreq.toNat < root

/-- 42_build R144: with two or more symbols the codes of BUILD's tree take no more bits in all than the weighted external
path length of any binary tree with the same leaf frequencies. -/
def Obligations.BuildIsOptimal : Prop :=
  ∀ s : State, 2 ≤ (presentSymbols s.freq).length →
    ∃ t u, exec .build s = .next t ∧ exec .codes t = .next u ∧
      ∀ w : WeightTree,
        w.leaves.Perm ((presentSymbols s.freq).map fun x => (symGet s.freq x).toNat) →
        encodedBits s.freq u.code ≤ w.cost 0

/-! CODES. -/

/-- 43_codes R164: with no tree CODES leaves every entry invalid and ends OK. -/
def Obligations.CodesWithoutTree : Prop :=
  ∀ s : State, s.tree.valid = false →
    exec .codes s =
      .next { s with code := CodeTable.empty, status := ⟨.ok, s.status.sticky, 0x04#8⟩, errInfo := 0#32 } ∧
    ∀ x, symGet CodeTable.empty x = CodeEntry.zero

/-- 43_codes R163: a tree that is one leaf gives its symbol the code "0" and no other symbol a code. -/
def Obligations.CodesOfOneLeaf : Prop :=
  ∀ s : State, TreeShape s.tree s.node 1 →
    ∃ ct : CodeTable,
      exec .codes s = .next { s with code := ct, status := ⟨.ok, s.status.sticky, 0x04#8⟩, errInfo := 0#32 } ∧
      (symGet ct (nodeAt s.node 0).sym).valid = true ∧ codeBits (symGet ct (nodeAt s.node 0).sym) = [false] ∧
      ∀ x, x ≠ (nodeAt s.node 0).sym → symGet ct x = CodeEntry.zero

/-- 43_codes R162 (with R161): over a tree of two or more leaves the code of each leaf's symbol is its path from the root, 0
for left and 1 for right, its length the depth; no other symbol has a code; nothing else changes but STATUS and
ERR_INFO. -/
def Obligations.CodesArePaths : Prop :=
  ∀ (s : State) (k : Nat), 2 ≤ k → TreeShape s.tree s.node k →
    ∃ ct : CodeTable,
      exec .codes s = .next { s with code := ct, status := ⟨.ok, s.status.sticky, 0x04#8⟩, errInfo := 0#32 } ∧
      (∀ n, n < k → (symGet ct (nodeAt s.node n).sym).valid = true ∧
        follow s.node s.tree.root.toNat (codeBits (symGet ct (nodeAt s.node n).sym)) = some n) ∧
      ∀ x, (∀ n, n < k → (nodeAt s.node n).sym ≠ x) → symGet ct x = CodeEntry.zero

/-- 43_codes R167: after CODES on a tree, the symbols with a code are the leaves' symbols, distinct symbols have distinct
codes, the table is prefix-free, and with two or more leaves it is complete: every infinite bit sequence has exactly one
code as a prefix; with one leaf no code begins with 1. -/
def Obligations.CodesPrefixFreeComplete : Prop :=
  ∀ (s : State) (k : Nat), TreeShape s.tree s.node k →
    ∃ t, exec .codes s = .next t ∧
      (∀ x, (symGet t.code x).valid = true ↔ ∃ n, n < k ∧ (nodeAt s.node n).sym = x) ∧
      (∀ x y, x ≠ y → (symGet t.code x).valid = true → (symGet t.code y).valid = true →
        codeBits (symGet t.code x) ≠ codeBits (symGet t.code y)) ∧
      PrefixFree t.code ∧
      (2 ≤ k → ∀ f : Nat → Bool, ∃! x, (symGet t.code x).valid = true ∧
        codeBits (symGet t.code x) = (List.range (symGet t.code x).len.toNat).map f) ∧
      (k = 1 → ∀ x, (symGet t.code x).valid = true → (codeBits (symGet t.code x)).head? = some false) ∧
      (2 ≤ k → ∀ n, n < k → ∃ c : Bits, follow s.node s.tree.root.toNat c = some n ∧
        c.length = (symGet t.code (nodeAt s.node n).sym).len.toNat)

/-- 43_codes R166: every valid code has 1 to 255 bits, at most k − 1 of them with two or more leaves, and CBITS[0] is 0. -/
def Obligations.CodeLengthBounds : Prop :=
  ∀ (s : State) (k : Nat), TreeShape s.tree s.node k →
    ∃ t, exec .codes s = .next t ∧
      ∀ x, (symGet t.code x).valid = true →
        1 ≤ (symGet t.code x).len.toNat ∧ (symGet t.code x).len.toNat ≤ 255 ∧
        (2 ≤ k → (symGet t.code x).len.toNat ≤ k - 1) ∧ (symGet t.code x).cbits.getLsbD 0 = false

/-- 43_codes R168: where CODES goes on it writes CODE, STATUS and ERR_INFO alone; from every state with the same TREE and
NODE, whatever commands and host accesses led there, it gives the same table; and no step changes TREE or NODE but one on
a CMD write of BUILD or CLEAR, or on reset. -/
def Obligations.CodesTwiceSameTable : Prop :=
  (∀ s t : State, exec .codes s = .next t →
    t = { s with code := t.code, status := ⟨.ok, s.status.sticky, 0x04#8⟩, errInfo := 0#32 } ∧
    ∀ s' : State, s'.tree = s.tree → s'.node = s.node → ∃ t', exec .codes s' = .next t' ∧ t'.code = t.code) ∧
  ∀ s t : State, step s = .next t →
    (∀ rest, s.pending ≠ .reset :: rest ∧ s.pending ≠ .write 0x00000000#32 (encode .build) :: rest ∧
      s.pending ≠ .write 0x00000000#32 (encode .clear) :: rest) →
    t.tree = s.tree ∧ t.node = s.node

/-! PACK. -/

/-- 44_pack R177, R179, R180, R181, R185: over a source that holds xs, every symbol with a code and the artifact within ART_CAP,
PACK writes the header and the packed bytes of the codes in stream order followed by zero bits, sets ART_LEN, and leaves
every other entry of ART and everything else but STATUS and ERR_INFO. The header is the least count that fills the last
byte: 0 to 7, and 0 exactly when the codes end on a byte boundary. Bit 7 − i of payload byte j is bit 8j + i of the codes
followed by the zero bits, so the low bits of the last byte, as many as the header says, are 0. -/
def Obligations.PackWritesArtifact : Prop :=
  ∀ (s : State) (xs : List Byte), s.src.holds xs → s.srcLen.toNat = xs.length →
    (∀ x ∈ xs, (symGet s.code x).valid = true) →
    let bits := xs.flatMap fun x => codeBits (symGet s.code x)
    let pad := (8 - bits.length % 8) % 8
    let m := (bits.length + 7) / 8
    1 + m ≤ s.caps.artCap →
    pad ≤ 7 ∧ bits.length + pad = 8 * m ∧ (∀ p, p < pad → (bits.length + p) % 8 ≠ 0) ∧
    (pad = 0 ↔ bits.length % 8 = 0) ∧
    ∃ a : Memory,
      exec .pack s = .next { s with
        art := a
        artLen := BitVec.ofNat 32 (1 + m)
        status := ⟨.ok, s.status.sticky, 0x05#8⟩
        errInfo := 0#32 } ∧
      a.read 0 = some (BitVec.ofNat 8 pad) ∧
      (∀ j, j < m → ∃ v : Byte, a.read (1 + j) = some v ∧
        v = byteOf (((bits ++ List.replicate pad false).drop (8 * j)).take 8) ∧
        (∀ i, i < 8 → (bits ++ List.replicate pad false)[8 * j + i]? = some (v.getLsbD (7 - i))) ∧
        (j + 1 = m → ∀ p, p < pad → v.getLsbD p = false)) ∧
      ∀ j, m < j → a.read j = s.art.read j

/-- 44_pack R176, R183: where a symbol of the source has no code, PACK ends LookupMiss with the smallest such index, ART_LEN
is 0, the contents of ART are unspecified, and everything else stays but STATUS and ERR_INFO. -/
def Obligations.PackReportsFirstMiss : Prop :=
  ∀ (s : State) (xs : List Byte) (i : Nat) (h : i < xs.length), s.src.holds xs → s.srcLen.toNat = xs.length →
    (symGet s.code xs[i]).valid = false →
    (∀ j, (hj : j < i) → (symGet s.code (xs[j]'(hj.trans h))).valid = true) →
    ∃ (a : Memory) (d : Nat),
      exec .pack s = .next { s with
        art := a
        drawn := d
        artLen := 0#32
        status := ⟨.lookupMiss, true, 0x05#8⟩
        errInfo := BitVec.ofNat 32 i }

/-- 44_pack R182, R183: with every symbol coded and an artifact of more than ART_CAP bytes, PACK ends Overflow with
ERR_INFO 0, ART_LEN 0 and unspecified ART. -/
def Obligations.PackOverflows : Prop :=
  ∀ (s : State) (xs : List Byte), s.src.holds xs → s.srcLen.toNat = xs.length →
    (∀ x ∈ xs, (symGet s.code x).valid = true) →
    s.caps.artCap < 1 + ((xs.flatMap fun x => codeBits (symGet s.code x)).length + 7) / 8 →
    ∃ (a : Memory) (d : Nat),
      exec .pack s = .next { s with
        art := a
        drawn := d
        artLen := 0#32
        status := ⟨.overflow, true, 0x05#8⟩
        errInfo := 0#32 }

/-- 44_pack R187: n copies of one symbol whose code is "0" pack to a header and ceil(n / 8) zero bytes, and n is
8 · (ART_LEN − 1) − ART[0]. -/
def Obligations.PackOfOneSymbol : Prop :=
  ∀ (s : State) (x : Byte) (n : Nat), 1 ≤ n → s.src.holds (List.replicate n x) → s.srcLen.toNat = n →
    (symGet s.code x).valid = true → codeBits (symGet s.code x) = [false] → 1 + (n + 7) / 8 ≤ s.caps.artCap →
    s.caps.wellFormed = true →
    ∃ (t : State) (header : Byte), exec .pack s = .next t ∧ t.status.result = .ok ∧
      t.artLen.toNat = 1 + (n + 7) / 8 ∧ t.art.read 0 = some header ∧ header.toNat = (8 - n % 8) % 8 ∧
      (∀ j, 1 ≤ j → j < t.artLen.toNat → t.art.read j = some 0x00#8) ∧
      n = 8 * (t.artLen.toNat - 1) - header.toNat

/-- PACK completes from every state, entries nothing has written included (44_pack R175): its result is OK, LookupMiss or
Overflow, it writes ART, ART_LEN, STATUS and ERR_INFO alone, and an error leaves ART_LEN 0. -/
def Obligations.PackCompletes : Prop :=
  ∀ s : State, ∃ (a : Memory) (n : Word) (r : ResultCode) (e : Word) (d : Nat),
    exec .pack s = .next { s with
      art := a
      artLen := n
      drawn := d
      status := ⟨r, s.status.sticky || decide (r ≠ .ok), 0x05#8⟩
      errInfo := e } ∧
    (r = .ok ∨ r = .lookupMiss ∨ r = .overflow) ∧ (r ≠ .ok → n = 0#32)

/-! UNPACK. -/

/-- 45_unpack R196, R197, R198: with ART_LEN 0 UNPACK ends MalformedStream with ERR_INFO 1; with a header above 7, ERR_INFO 2;
with a header of 1 to 7 over an empty payload, the one way a header up to 7 is longer than the payload, ERR_INFO 3. DST_LEN
is 0 and DST unspecified (R204), and nothing else changes but STATUS. -/
def Obligations.UnpackHeaderFaults : Prop :=
  (∀ s : State, s.artLen = 0#32 →
    ∃ (a : Memory) (d : Nat),
      exec .unpack s = .next { s with
        dst := a
        drawn := d
        dstLen := 0#32
        status := ⟨.malformedStream, true, 0x06#8⟩
        errInfo := 1#32 }) ∧
  ∀ (s : State) (header : Byte) (payload : List Byte), s.art.holds (header :: payload) →
    s.artLen.toNat = payload.length + 1 →
    (7 < header.toNat → ∃ (a : Memory) (d : Nat),
      exec .unpack s = .next { s with
        dst := a
        drawn := d
        dstLen := 0#32
        status := ⟨.malformedStream, true, 0x06#8⟩
        errInfo := 2#32 }) ∧
    (header.toNat ≤ 7 → 8 * payload.length < header.toNat → payload = [] ∧ ∃ (a : Memory) (d : Nat),
      exec .unpack s = .next { s with
        dst := a
        drawn := d
        dstLen := 0#32
        status := ⟨.malformedStream, true, 0x06#8⟩
        errInfo := 3#32 })

/-- 45_unpack R200, R203: where the payload without its padding is the codes of out in order, and out fits, UNPACK writes out
to DST in order, sets DST_LEN, ends OK, and leaves every other entry of DST and everything else but STATUS and ERR_INFO.
Bit 8j + i of the payload's bit-string is bit 7 − i of its byte j (30_encoding R105). -/
def Obligations.UnpackDecodes : Prop :=
  ∀ (s : State) (header : Byte) (payload out : List Byte), s.art.holds (header :: payload) →
    s.artLen.toNat = payload.length + 1 → header.toNat ≤ 7 → header.toNat ≤ 8 * payload.length → CodeOk s.code →
    (∀ x ∈ out, (symGet s.code x).valid = true) →
    (payload.flatMap bitsOf).take (8 * payload.length - header.toNat) =
      (out.flatMap fun x => codeBits (symGet s.code x)) →
    out.length ≤ s.caps.dstCap →
    (∀ j i, (h : j < payload.length) → i < 8 →
      (payload.flatMap bitsOf)[8 * j + i]? = some (payload[j].getLsbD (7 - i))) ∧
    ∃ a : Memory,
      exec .unpack s = .next { s with
        dst := a
        dstLen := BitVec.ofNat 32 out.length
        status := ⟨.ok, s.status.sticky, 0x06#8⟩
        errInfo := 0#32 } ∧
      a.holds out ∧ ∀ j, out.length ≤ j → a.read j = s.dst.read j

/-- 45_unpack R202, R204: a stream that decodes to more than DST_CAP symbols is Overflow with ERR_INFO 1, DST_LEN 0 and
unspecified DST. -/
def Obligations.UnpackOverflows : Prop :=
  ∀ (s : State) (header : Byte) (payload out : List Byte), s.art.holds (header :: payload) →
    s.artLen.toNat = payload.length + 1 → header.toNat ≤ 7 → header.toNat ≤ 8 * payload.length → CodeOk s.code →
    (∀ x ∈ out, (symGet s.code x).valid = true) →
    (payload.flatMap bitsOf).take (8 * payload.length - header.toNat) =
      (out.flatMap fun x => codeBits (symGet s.code x)) →
    s.caps.dstCap < out.length →
    ∃ (a : Memory) (d : Nat),
      exec .unpack s = .next { s with
        dst := a
        drawn := d
        dstLen := 0#32
        status := ⟨.overflow, true, 0x06#8⟩
        errInfo := 1#32 }

/-- 45_unpack R201, R204: where the bits end in a candidate that is not empty and begins with no code, UNPACK ends
MalformedStream with ERR_INFO 0, DST_LEN 0 and unspecified DST, however many symbols came before. -/
def Obligations.UnpackTrailingCandidate : Prop :=
  ∀ (s : State) (header : Byte) (payload out : List Byte) (cand : Bits), s.art.holds (header :: payload) →
    s.artLen.toNat = payload.length + 1 → header.toNat ≤ 7 → header.toNat ≤ 8 * payload.length → CodeOk s.code →
    (∀ x ∈ out, (symGet s.code x).valid = true) →
    (payload.flatMap bitsOf).take (8 * payload.length - header.toNat) =
      (out.flatMap fun x => codeBits (symGet s.code x)) ++ cand →
    cand ≠ [] → (∀ x, (symGet s.code x).valid = true → ¬ codeBits (symGet s.code x) <+: cand) →
    ∃ (a : Memory) (d : Nat),
      exec .unpack s = .next { s with
        dst := a
        drawn := d
        dstLen := 0#32
        status := ⟨.malformedStream, true, 0x06#8⟩
        errInfo := 0#32 }

/-- 44_pack R184, 45_unpack R205: with SRC_LEN 0 PACK writes the one byte 0x00 and ART_LEN 1 and ends OK, and UNPACK of that
artifact ends OK with DST_LEN 0 and writes no entry, whatever CODE holds. -/
def Obligations.EmptyArtifact : Prop :=
  ∀ s : State,
    (s.srcLen = 0#32 → 1 ≤ s.caps.artCap →
      exec .pack s = .next { s with
        art := s.art.write 0 0x00#8
        artLen := 1#32
        status := ⟨.ok, s.status.sticky, 0x05#8⟩
        errInfo := 0#32 }) ∧
    (s.artLen = 1#32 → s.art.read 0 = some 0x00#8 →
      exec .unpack s =
        .next { s with dstLen := 0#32, status := ⟨.ok, s.status.sticky, 0x06#8⟩, errInfo := 0#32 })

/-- 45_unpack R206: two artifacts that differ only in the padding bits unpack alike. -/
def Obligations.UnpackIgnoresPadding : Prop :=
  ∀ (s : State) (art' : Memory) (header : Byte) (payload payload' : List Byte), s.art.holds (header :: payload) →
    art'.holds (header :: payload') → s.artLen.toNat = payload.length + 1 → payload'.length = payload.length →
    (payload.flatMap bitsOf).take (8 * payload.length - header.toNat) =
      (payload'.flatMap bitsOf).take (8 * payload.length - header.toNat) →
    ∃ t, exec .unpack s = .next t ∧ exec .unpack { s with art := art' } = .next { t with art := art' }

/-- 45_unpack R209: whatever the artifact, and from every state, UNPACK ends OK, MalformedStream or Overflow; it writes DST,
DST_LEN, STATUS and ERR_INFO alone, an error leaves DST_LEN 0, and the invariants of 10_state R40 are kept. -/
def Obligations.UnpackCompletes : Prop :=
  ∀ s : State, ∃ (a : Memory) (n : Word) (r : ResultCode) (e : Word) (d : Nat),
    exec .unpack s = .next { s with
      dst := a
      dstLen := n
      drawn := d
      status := ⟨r, s.status.sticky || decide (r ≠ .ok), 0x06#8⟩
      errInfo := e } ∧
    (r = .ok ∨ r = .malformedStream ∨ r = .overflow) ∧ (r ≠ .ok → n = 0#32) ∧
    (s.Inv → ({ s with
      dst := a
      dstLen := n
      drawn := d
      status := ⟨r, s.status.sticky || decide (r ≠ .ok), 0x06#8⟩
      errInfo := e } : State).Inv)

/-- 45_unpack R199: lookup gives the one symbol whose valid code is the bit-string, and none for the empty bit-string and for
one longer than 255 bits. -/
def Obligations.LookupIsReverseTable : Prop :=
  ∀ t : CodeTable, CodeOk t →
    (∀ (c : Bits) (x : Byte), lookup t c = some x ↔ (symGet t x).valid = true ∧ codeBits (symGet t x) = c) ∧
    lookup t [] = none ∧ ∀ c : Bits, 255 < c.length → lookup t c = none

/-- 45_unpack R211: with the one code "0", zero bits give copies of its symbol, and any 1 bit gives MalformedStream with
ERR_INFO 0. -/
def Obligations.UnpackWithOneCode : Prop :=
  ∀ (s : State) (x : Byte) (header : Byte) (payload : List Byte), s.art.holds (header :: payload) →
    s.artLen.toNat = payload.length + 1 → header.toNat ≤ 7 → header.toNat ≤ 8 * payload.length →
    (symGet s.code x).valid = true → codeBits (symGet s.code x) = [false] →
    (∀ y, y ≠ x → (symGet s.code y).valid = false) →
    let bits := (payload.flatMap bitsOf).take (8 * payload.length - header.toNat)
    ∃ t, exec .unpack s = .next t ∧
      ((∀ b ∈ bits, b = false) → bits.length ≤ s.caps.dstCap →
        t.status.result = .ok ∧ t.dstLen = BitVec.ofNat 32 bits.length ∧ t.dst.holds (List.replicate bits.length x)) ∧
      (true ∈ bits → t.status.result = .malformedStream ∧ t.errInfo = 0#32)

/-! The whole engine. -/

/-- 45_unpack R208: what COUNT, BUILD, CODES and PACK make of a source of 1 to min(SRC_CAP, DST_CAP) symbols, UNPACK turns
back into it; PACK ends OK where the artifact fits; and the empty source round-trips through PACK and UNPACK alone. -/
def Obligations.RoundTrip : Prop :=
  (∀ (s : State) (xs : List Byte), s.caps.wellFormed = true → s.src.holds xs → s.srcLen.toNat = xs.length →
    1 ≤ xs.length → xs.length ≤ s.caps.srcCap → xs.length ≤ s.caps.dstCap →
    ∃ t₁ t₂ t₃ t₄, exec .count s = .next t₁ ∧ exec .build t₁ = .next t₂ ∧ exec .codes t₂ = .next t₃ ∧
      exec .pack t₃ = .next t₄ ∧
      t₁.status.result = .ok ∧ t₂.status.result = .ok ∧ t₃.status.result = .ok ∧
      (1 + (encodedBits t₁.freq t₃.code + 7) / 8 ≤ s.caps.artCap → t₄.status.result = .ok) ∧
      (t₄.status.result = .ok →
        ∃ t₅, exec .unpack t₄ = .next t₅ ∧ t₅.status.result = .ok ∧ t₅.dstLen.toNat = xs.length ∧ t₅.dst.holds xs)) ∧
  ∀ s : State, s.srcLen = 0#32 → 1 ≤ s.caps.artCap →
    ∃ t u, exec .pack s = .next t ∧ exec .unpack t = .next u ∧ u.status.result = .ok ∧ u.dstLen = 0#32

/-- 10_state R40: from every state in which the invariants hold, a step that goes on leads to one in which they hold. -/
def Obligations.StepKeepsInvariants : Prop := ∀ s t : State, s.Inv → step s = .next t → t.Inv

/-- 10_state R40: the invariants hold after reset, for every capacity in range. -/
def Obligations.ResetMeetsInvariants : Prop := ∀ c : Caps, c.wellFormed = true → (State.resetWith c).Inv

/-- 46_control_commands R224, 93_implementation_defined section 1: where the invariants hold every command ends and every
access is answered: no step stops, and one answer is appended for every input but reset. -/
def Obligations.EveryAccessAnswered : Prop :=
  ∀ s : State, s.Inv →
    (∀ i, ∃ t, exec i s = .next t) ∧
    ∃ t, step s = .next t ∧ ∀ x rest, s.pending = x :: rest → t.pending = rest ∧
      (x ≠ .reset → ∃ r, t.responses = s.responses ++ [r])

/-- 10_state R42, the writes: a command that goes on changes only what its row lists. -/
def Obligations.CommandsWriteOnlyTheirRow : Prop :=
  ∀ (i : Instr) (s t : State), exec i s = .next t →
    t.caps = s.caps ∧ t.src = s.src ∧ t.pending = s.pending ∧ t.responses = s.responses ∧
    (i ≠ .clear → t.srcLen = s.srcLen) ∧
    (i ≠ .clear → i ≠ .pack → t.artLen = s.artLen) ∧
    (i ≠ .clear → i ≠ .unpack → t.dstLen = s.dstLen) ∧
    (i ≠ .clear → i ≠ .build → t.tree = s.tree ∧ t.node = s.node) ∧
    (i ≠ .clear → i ≠ .count → t.freq = s.freq) ∧
    (i ≠ .clear → i ≠ .codes → t.code = s.code) ∧
    (i ≠ .pack → t.art = s.art) ∧
    (i ≠ .unpack → t.dst = s.dst)

/-- 10_state R42, the reads: what a command writes depends only on what its row lists, on the capacities, and, for entries
nothing has written, on how many free values were drawn (entry 1). -/
def Obligations.CommandsReadOnlyTheirRow : Prop :=
  ∀ s s' t t' : State, s.caps = s'.caps → s.drawn = s'.drawn →
    (s.srcLen = s'.srcLen → (∀ i, i < s.srcLen.toNat → s.src.read i = s'.src.read i) →
      exec .count s = .next t → exec .count s' = .next t' → t.freq = t'.freq) ∧
    (s.freq = s'.freq → exec .build s = .next t → exec .build s' = .next t' →
      t.node = t'.node ∧ t.tree = t'.tree ∧ t.status.result = t'.status.result ∧ t.errInfo = t'.errInfo) ∧
    (s.tree = s'.tree → s.node = s'.node → exec .codes s = .next t → exec .codes s' = .next t' → t.code = t'.code) ∧
    (s.srcLen = s'.srcLen → (∀ i, i < s.srcLen.toNat → s.src.read i = s'.src.read i) → s.code = s'.code →
      exec .pack s = .next t → exec .pack s' = .next t' →
      t.status.result = t'.status.result ∧ t.errInfo = t'.errInfo ∧ t.artLen = t'.artLen ∧
      (t.status.result = .ok → ∀ i, i < t.artLen.toNat → t.art.read i = t'.art.read i)) ∧
    (s.artLen = s'.artLen → (∀ i, i < s.artLen.toNat → s.art.read i = s'.art.read i) → s.code = s'.code →
      exec .unpack s = .next t → exec .unpack s' = .next t' →
      t.status.result = t'.status.result ∧ t.errInfo = t'.errInfo ∧ t.dstLen = t'.dstLen ∧
      (t.status.result = .ok → ∀ i, i < t.dstLen.toNat → t.dst.read i = t'.dst.read i))

/-! The host port. -/

/-- 20_memory R66, R67: an access to an unmapped address, or with addr[1:0] not 0, is answered ERROR, read data 0, and changes
nothing. -/
def Obligations.BadAddressRefused : Prop :=
  ∀ (s : State) (a w : Word) (rest : List HostInput), s.caps.wellFormed = true →
    Unmapped s.caps a.toNat ∨ a.extractLsb' 0 2 ≠ 0#2 →
    s.pending = .read a :: rest ∨ s.pending = .write a w :: rest →
    step s = .next { s with pending := rest, responses := s.responses ++ [⟨.error, 0⟩] }

/-- 20_memory R68: a write to a read-only address is answered ERROR and changes nothing; a read of CMD gives 0 with OKAY. -/
def Obligations.ReadOnlyWriteRefused : Prop :=
  (∀ (s : State) (a w : Word) (rest : List HostInput), s.caps.wellFormed = true → ReadOnly s.caps a.toNat →
    s.pending = .write a w :: rest →
    step s = .next { s with pending := rest, responses := s.responses ++ [⟨.error, 0⟩] }) ∧
  ∀ (s : State) (rest : List HostInput), s.pending = .read 0x00000000#32 :: rest →
    step s = .next { s with pending := rest, responses := s.responses ++ [⟨.okay, 0⟩] }

/-- 20_memory R62: a read changes nothing but what the model itself keeps (the input is taken, the answer is appended, a free
value may have been drawn, entry 2). 10_state R20: with no access nothing changes at all (that the host's accesses wait in
`pending` is the model's choice, entry 5). -/
def Obligations.ReadAndIdleChangeNothing : Prop :=
  (∀ (s : State) (a : Word) (rest : List HostInput), s.pending = .read a :: rest →
    ∃ (r : Response) (d : Nat),
      step s = .next { s with pending := rest, responses := s.responses ++ [r], drawn := d }) ∧
  ∀ s : State, s.pending = [] → step s = .next s

/-- 10_state R23, R24 and 20_memory R65: what a read of each control register and of each table window gives. -/
def Obligations.RegisterAndTableReads : Prop :=
  ∀ (s : State) (rest : List HostInput),
    (∀ p : Nat × Word,
      p ∈ [(0x00, 0#32), (0x04, s.status.word), (0x08, s.errInfo), (0x0C, s.srcLen), (0x10, s.artLen),
        (0x14, s.dstLen), (0x18, s.tree.word), (0x1C, BitVec.ofNat 32 s.caps.srcCap),
        (0x20, BitVec.ofNat 32 s.caps.artCap), (0x24, BitVec.ofNat 32 s.caps.dstCap)] →
      s.pending = .read (BitVec.ofNat 32 p.1) :: rest →
      step s = .next { s with pending := rest, responses := s.responses ++ [⟨.okay, p.2⟩] }) ∧
    (∀ x : Byte, s.pending = .read (BitVec.ofNat 32 (0x400 + 4 * x.toNat)) :: rest →
      step s = .next { s with pending := rest, responses := s.responses ++ [⟨.okay, symGet s.freq x⟩] }) ∧
    (∀ n w : Nat, n ≤ 510 → w ≤ 3 → s.pending = .read (BitVec.ofNat 32 (0x2000 + 16 * n + 4 * w)) :: rest →
      step s = .next { s with pending := rest, responses := s.responses ++ [⟨.okay, (nodeAt s.node n).word w⟩] }) ∧
    ∀ (x : Byte) (w : Nat), w ≤ 15 →
      s.pending = .read (BitVec.ofNat 32 (0x4000 + 64 * x.toNat + 4 * w)) :: rest →
      step s = .next { s with pending := rest, responses := s.responses ++ [⟨.okay, (symGet s.code x).word w⟩] }

/-- 20_memory R65, the reads of the buffer windows: an entry that was written reads as its byte with zeros above; one nothing
has written answers OKAY with some byte and zeros above, the byte being a free value (93_implementation_defined U1,
entry 1). -/
def Obligations.BufferReads : Prop :=
  ∀ (s : State) (rest : List HostInput) (i : Nat) (base cap : Nat) (m : Memory), s.caps.wellFormed = true → i < cap →
    (base, cap, m) ∈ [(0x10000000, s.caps.srcCap, s.src), (0x20000000, s.caps.artCap, s.art),
      (0x30000000, s.caps.dstCap, s.dst)] →
    s.pending = .read (BitVec.ofNat 32 (base + 4 * i)) :: rest →
    (∀ b, m.read i = some b →
      step s = .next { s with pending := rest, responses := s.responses ++ [⟨.okay, b.setWidth 32⟩] }) ∧
    (m.read i = none → ∃ (b : Byte) (d : Nat),
      step s = .next { s with pending := rest, responses := s.responses ++ [⟨.okay, b.setWidth 32⟩], drawn := d })

/-- 20_memory R65, the writes, and 10_state R27, R28: FREQ takes the word, SRC and ART take its low byte in the entry addressed
and in no other; a length up to the capacity is stored, a greater one is answered ERROR and changes nothing. -/
def Obligations.HostWritesStore : Prop :=
  ∀ (s : State) (w : Word) (rest : List HostInput), s.caps.wellFormed = true →
    (∀ x : Byte, s.pending = .write (BitVec.ofNat 32 (0x400 + 4 * x.toNat)) w :: rest →
      ∃ f : FreqTable,
        step s = .next { s with pending := rest, freq := f, responses := s.responses ++ [⟨.okay, 0⟩] } ∧
        symGet f x = w ∧ ∀ y, y ≠ x → symGet f y = symGet s.freq y) ∧
    (∀ i, i < s.caps.srcCap → s.pending = .write (BitVec.ofNat 32 (0x10000000 + 4 * i)) w :: rest →
      ∃ m : Memory,
        step s = .next { s with pending := rest, src := m, responses := s.responses ++ [⟨.okay, 0⟩] } ∧
        m.read i = some (w.extractLsb' 0 8) ∧ ∀ j, j ≠ i → m.read j = s.src.read j) ∧
    (∀ i, i < s.caps.artCap → s.pending = .write (BitVec.ofNat 32 (0x20000000 + 4 * i)) w :: rest →
      ∃ m : Memory,
        step s = .next { s with pending := rest, art := m, responses := s.responses ++ [⟨.okay, 0⟩] } ∧
        m.read i = some (w.extractLsb' 0 8) ∧ ∀ j, j ≠ i → m.read j = s.art.read j) ∧
    (s.pending = .write 0x0000000C#32 w :: rest →
      step s = if w.toNat ≤ s.caps.srcCap
        then .next { s with pending := rest, srcLen := w, responses := s.responses ++ [⟨.okay, 0⟩] }
        else .next { s with pending := rest, responses := s.responses ++ [⟨.error, 0⟩] }) ∧
    (s.pending = .write 0x00000010#32 w :: rest →
      step s = if w.toNat ≤ s.caps.artCap
        then .next { s with pending := rest, artLen := w, responses := s.responses ++ [⟨.okay, 0⟩] }
        else .next { s with pending := rest, responses := s.responses ++ [⟨.error, 0⟩] })

/-- 10_state R25, R30 and 30_encoding R100: the bits of STATUS, TREE and the words of a node. RESULT holds the numbers of
60_exceptions R240. -/
def Obligations.RegisterAndNodeLayout : Prop :=
  (ResultCode.number .ok = 0 ∧ ResultCode.number .emptyAlphabet = 1 ∧ ResultCode.number .lookupMiss = 2 ∧
    ResultCode.number .malformedStream = 3 ∧ ResultCode.number .overflow = 4 ∧ ResultCode.number .illegalCommand = 5) ∧
  (∀ st : Status, st.word.extractLsb' 0 4 = st.result.number ∧ st.word.getLsbD 4 = st.sticky ∧
    st.word.extractLsb' 5 3 = 0#3 ∧ st.word.extractLsb' 8 8 = st.lastop ∧ st.word.extractLsb' 16 16 = 0#16 ∧
    (st.word.extractLsb' 0 4).toNat ≤ 5) ∧
  (∀ t : Tree, t.word.extractLsb' 0 9 = t.root ∧ t.word.extractLsb' 9 9 = t.nleaf ∧
    t.word.extractLsb' 18 10 = t.nnodes ∧ t.word.extractLsb' 28 3 = 0#3 ∧ t.word.getLsbD 31 = t.valid) ∧
  ∀ n : Node, n.word 0 = n.nfreq.extractLsb' 0 32 ∧ (n.word 1).extractLsb' 0 8 = n.nfreq.extractLsb' 32 8 ∧
    (n.word 1).extractLsb' 8 24 = 0#24 ∧ (n.word 2).extractLsb' 0 8 = n.sym ∧ (n.word 2).extractLsb' 8 9 = n.left ∧
    (n.word 2).extractLsb' 17 9 = n.right ∧ (n.word 2).extractLsb' 26 4 = 0#4 ∧ (n.word 2).getLsbD 30 = n.leaf ∧
    (n.word 2).getLsbD 31 = n.valid ∧ n.word 3 = 0#32

/-- 30_encoding R102: the bits of the words of a code entry; bit 31 − j of word w is CBITS[255 − (32·(w−1) + j)], and where
the code has a bit b_(32·(w−1)+j), that bit (10_state R34). -/
def Obligations.CodeEntryLayout : Prop :=
  ∀ e : CodeEntry,
    (e.word 0).extractLsb' 0 8 = e.len ∧ (e.word 0).extractLsb' 8 23 = 0#23 ∧ (e.word 0).getLsbD 31 = e.valid ∧
    (codeBits e).length = e.len.toNat ∧
    (∀ w j, 1 ≤ w → w ≤ 8 → j ≤ 31 →
      (e.word w).getLsbD (31 - j) = e.cbits.getLsbD (255 - (32 * (w - 1) + j)) ∧
      (32 * (w - 1) + j < e.len.toNat → (codeBits e)[32 * (w - 1) + j]? = some ((e.word w).getLsbD (31 - j)))) ∧
    ∀ w, 9 ≤ w → w ≤ 15 → e.word w = 0#32
end

