-- ==== Sys2Proof/Laws/Operands.lean ====
section
/-! SUPPORT. The laws of the forms data takes: table reads after writes, code entries as bit-strings, bytes as bit-strings,
and which indices the address map gives. -/

namespace Sys2Proof.Machine

/-! Tables. -/

@[simp] theorem symGet_symSet_self {α : Type} (t : Vector α 256) (s : Byte) (x : α) : symGet (symSet t s x) s = x := by
  simp [symGet, symSet]

theorem symGet_symSet_ne {α : Type} (t : Vector α 256) (x : α) {s r : Byte} (h : r ≠ s) :
    symGet (symSet t s x) r = symGet t r := by
  have : s.toNat ≠ r.toNat := fun e => h (BitVec.eq_of_toNat_eq e.symm)
  simp [symGet, symSet, Vector.getElem_set_ne _ _ this]

theorem symGet_symSet {α : Type} (t : Vector α 256) (x : α) (s r : Byte) :
    symGet (symSet t s x) r = if r = s then x else symGet t r := by
  split_ifs with h
  · subst h; simp
  · exact symGet_symSet_ne t x h

@[simp] theorem symGet_freq_empty (s : Byte) : symGet FreqTable.empty s = 0#32 := by
  simp [symGet, FreqTable.empty]

@[simp] theorem symGet_code_empty (s : Byte) : symGet CodeTable.empty s = CodeEntry.zero := by
  simp [symGet, CodeTable.empty]

/-- Tables with equal entries are equal. -/
theorem symTable_ext {α : Type} {t u : Vector α 256} (h : ∀ s, symGet t s = symGet u s) : t = u := by
  apply Vector.ext
  intro i hi
  have := h (BitVec.ofNat 8 i)
  have e : (BitVec.ofNat 8 i).toNat = i := by simp [BitVec.toNat_ofNat, Nat.mod_eq_of_lt hi]
  simpa [symGet, e, -BitVec.toNat_ofNat] using this

theorem mem_allSymbols (s : Byte) : s ∈ allSymbols := by
  refine List.mem_map.mpr ⟨s.toNat, List.mem_range.mpr s.isLt, ?_⟩
  simp

/-- Every node index but 511 names an entry. -/
theorem nodeGet_eq_some (t : NodeTable) (n : NodeIdx) (h : n.toNat < 511) : nodeGet t n = some (nodeAt t n.toNat) := by
  simp [nodeGet, nodeAt, h]

theorem nodeGet_eq_none (t : NodeTable) (n : NodeIdx) (h : ¬ n.toNat < 511) : nodeGet t n = none := by
  simp [nodeGet]; omega

@[simp] theorem nodeAt_empty (n : Nat) : nodeAt NodeTable.empty n = Node.zero := by
  by_cases h : n < 511 <;> simp [nodeAt, NodeTable.empty, h]

/-- The node memory of a list: the list's nodes, then zero entries. -/
theorem nodeAt_nodeTableOf (l : List Node) {n : Nat} (h : n < 511) : nodeAt (nodeTableOf l) n = l.getD n Node.zero := by
  simp [nodeAt, nodeTableOf, h]

/-! Code entries. -/

@[simp] theorem codeBits_length (e : CodeEntry) : (codeBits e).length = e.len.toNat := by simp [codeBits]

@[simp] theorem codeBits_zero : codeBits CodeEntry.zero = [] := by decide

/-- Bit `255 - i` of `cbitsFrom k c` is bit `i - k` of the bit-string. -/
theorem cbitsFrom_getLsbD (c : Bits) (k i : Nat) (hk : k + c.length ≤ 256) (hi : i ≤ 255) :
    (cbitsFrom k c).getLsbD (255 - i) = if k ≤ i then c.getD (i - k) false else false := by
  induction c generalizing k with
  | nil => simp [cbitsFrom]
  | cons b c ih =>
    have hk' : k + 1 + c.length ≤ 256 := by simp at hk; omega
    simp only [cbitsFrom, BitVec.getLsbD_or, ih (k + 1) hk']
    have hb : (if b then BitVec.twoPow 256 (255 - k) else 0#256).getLsbD (255 - i) = (b && decide (k = i)) := by
      cases b
      · simp
      · have : (255 - k = 255 - i) ↔ k = i := by simp at hk; omega
        simp [BitVec.getLsbD_twoPow, this]
        intro e; omega
    rw [show (0 : BitVec 256) = 0#256 from rfl, hb]
    rcases lt_trichotomy i k with h | rfl | h
    · simp [show ¬ k = i by omega, show ¬ k + 1 ≤ i by omega, show ¬ k ≤ i by omega]
    · simp
    · obtain ⟨j, rfl⟩ : ∃ j, i = k + 1 + j := ⟨i - (k + 1), by omega⟩
      simp [show ¬ k = k + 1 + j by omega, show k ≤ k + 1 + j by omega, show k + 1 + j - k = j + 1 by omega]

/-- `code_of` after `set_code` gives the code written (10_state R34). -/
theorem codeBits_codeEntryOf {c : Bits} (h : c.length ≤ 255) : codeBits (codeEntryOf c) = c := by
  have hl : (codeEntryOf c).len.toNat = c.length := by simp [codeEntryOf]; omega
  apply List.ext_getElem
  · simp [hl]
  · intro i h1 h2
    have h3 : i < c.length := h2
    simp only [codeBits, List.getElem_map, List.getElem_range]
    simp only [codeEntryOf]
    rw [cbitsFrom_getLsbD c 0 i (by omega) (by omega)]
    simp [h3]

@[simp] theorem codeEntryOf_valid (c : Bits) : (codeEntryOf c).valid = true := rfl

/-- The entry `set_code` writes is in form (10_state R34). -/
theorem codeEntryOk_codeEntryOf {c : Bits} (h1 : 1 ≤ c.length) (h : c.length ≤ 255) : CodeEntryOk (codeEntryOf c) := by
  have hl : (codeEntryOf c).len.toNat = c.length := by simp [codeEntryOf]; omega
  refine ⟨by simp, fun _ => ⟨by omega, fun i hi hi' => ?_⟩⟩
  rw [hl] at hi
  simp only [codeEntryOf]
  rw [cbitsFrom_getLsbD c 0 i (by omega) hi']
  simp [List.getElem?_eq_none hi]

theorem codeEntryOk_zero : CodeEntryOk CodeEntry.zero := by
  refine ⟨fun _ => rfl, fun h => ?_⟩
  cases h

/-- The empty code table is in form (10_state R40 item 5). -/
theorem codeOk_empty : CodeOk CodeTable.empty := by
  refine ⟨fun x => by simpa using codeEntryOk_zero, fun x y _ hx => ?_⟩
  rw [symGet_code_empty] at hx
  cases hx

/-- What `lookup` finds is a valid entry whose code is the bit-string. -/
theorem lookup_sound {t : CodeTable} {c : Bits} {s : Byte} (h : lookup t c = some s) :
    (symGet t s).valid = true ∧ codeBits (symGet t s) = c := by
  simpa [codeMatches] using List.find?_some h

/-- Where `lookup` finds nothing, no valid entry's code is the bit-string. -/
theorem lookup_none {t : CodeTable} {c : Bits} (h : lookup t c = none) (s : Byte) (hv : (symGet t s).valid = true) :
    codeBits (symGet t s) ≠ c := by
  have := List.find?_eq_none.mp h s (mem_allSymbols s)
  simpa [codeMatches, hv] using this

/-! Bytes as bit-strings. -/

@[simp] theorem bitsOf_length (v : Byte) : (bitsOf v).length = 8 := by simp [bitsOf]

/-- `byte_of(bits_of(v)) = v` (00_scope R10). -/
theorem byteOf_bitsOf (v : Byte) : byteOf (bitsOf v) = v := by
  revert v; decide +kernel

/-- `bits_of(byte_of(b)) = b` for an 8-bit string. -/
theorem bitsOf_byteOf {b : Bits} (h : b.length = 8) : bitsOf (byteOf b) = b := by
  match b, h with
  | [a, b, c, d, e, f, g, i], _ => revert a b c d e f g i; decide +kernel

/-- Bit `7 - i` of the byte of eight bits is bit `i` of them (00_scope R10). -/
theorem byteOf_getLsbD {b : Bits} (h : b.length = 8) {i : Nat} (hi : i < 8) : b[i]? = some ((byteOf b).getLsbD (7 - i)) := by
  rw [← bitsOf_byteOf h, byteOf_bitsOf]
  simp [bitsOf, hi]

@[simp] theorem bytesOfBits_length (m : Nat) (b : Bits) : (bytesOfBits m b).length = m := by
  induction m generalizing b with
  | zero => rfl
  | succ m ih => simp [bytesOfBits, ih]

/-- Byte `j` is `byte_of(b[8j..8j+8))` (44_pack R180). -/
theorem bytesOfBits_getElem (m : Nat) (b : Bits) (j : Nat) (h : j < m) :
    (bytesOfBits m b)[j]'(by simpa using h) = byteOf ((b.drop (8 * j)).take 8) := by
  induction m generalizing b j with
  | zero => omega
  | succ m ih =>
    cases j with
    | zero => simp [bytesOfBits]
    | succ j =>
      simp only [bytesOfBits, List.getElem_cons_succ]
      rw [ih (b.drop 8) j (by omega), List.drop_drop, show 8 + 8 * j = 8 * (j + 1) by omega]

/-- Packing loses nothing: the bytes' bits are the bit-string again (30_encoding R105). -/
theorem bitsOfBytes_bytesOfBits {m : Nat} {b : Bits} (h : b.length = 8 * m) : bitsOfBytes (bytesOfBits m b) = b := by
  induction m generalizing b with
  | zero => simpa [bytesOfBits, bitsOfBytes, eq_comm] using h
  | succ m ih =>
    have h8 : (b.take 8).length = 8 := by simp; omega
    have hd : (b.drop 8).length = 8 * m := by simp; omega
    have := ih hd
    simp only [bitsOfBytes] at this ⊢
    rw [bytesOfBits, List.flatMap_cons, bitsOf_byteOf h8, this, List.take_append_drop]

@[simp] theorem bitsOfBytes_length (p : List Byte) : (bitsOfBytes p).length = 8 * p.length := by
  induction p with
  | nil => rfl
  | cons x p ih =>
    simp only [bitsOfBytes] at ih ⊢
    simp [ih]; omega

/-- Bit `8j + i` of a payload's bit-string is bit `7 - i` of byte `j` (30_encoding R105). -/
theorem bitsOfBytes_getElem? (p : List Byte) {j i : Nat} (h : j < p.length) (hi : i < 8) :
    (bitsOfBytes p)[8 * j + i]? = some (p[j].getLsbD (7 - i)) := by
  induction p generalizing j with
  | nil => cases h
  | cons x p ih =>
    cases j with
    | zero => simp [bitsOfBytes, List.getElem?_append, bitsOf, hi]
    | succ j =>
      rw [show 8 * (j + 1) + i = 8 + (8 * j + i) by omega]
      simpa [bitsOfBytes, List.getElem?_append] using ih (j := j) (by simpa using h)

/-! The address map. -/

/-- The map gives only entries that exist, and only inside their window (20_memory R64). -/
theorem decodeAddr_sound {c : Caps} {a : Nat} {t : Target} (h : decodeAddr c a = some t) :
    match t with
    | .reg _ => a < 0x28
    | .freq _ => 0x400 ≤ a ∧ a < 0x800
    | .node n w => n.toNat < 511 ∧ w < 4
    | .code _ w => w < 16
    | .src i => i < c.srcCap
    | .art i => i < c.artCap
    | .dst i => i < c.dstCap := by
  unfold decodeAddr at h
  split_ifs at h with h1 h2 h3 h4 h5 h6 h7
  · obtain ⟨r, _, rfl⟩ := Option.map_eq_some_iff.mp h
    exact h1
  all_goals (cases h; simp only [BitVec.toNat_ofNat]; omega)

end Sys2Proof.Machine
end

