-- ==== Sys2Proof/Laws/Build.lean ====
section
/-! SUPPORT. The laws of BUILD's parts: the queue, adding a node, seeding, and what the command answers. -/

namespace Sys2Proof.Machine

@[simp] theorem pqPopMin_nil : pqPopMin [] = none := rfl

theorem pqPopMin_cons_ne_none (e : QEntry) (q : List QEntry) : pqPopMin (e :: q) ≠ none := by
  rw [pqPopMin]
  split
  · simp
  · split_ifs <;> simp

/-- Popping fails on the empty queue alone (42_build R135). -/
theorem pqPopMin_eq_none {q : List QEntry} : pqPopMin q = none ↔ q = [] := by
  cases q with
  | nil => simp
  | cons e q => simpa using pqPopMin_cons_ne_none e q

/-- Popping takes one entry. -/
theorem pqPopMin_length {q : List QEntry} {e : QEntry} {rest : List QEntry} (h : pqPopMin q = some (e, rest)) :
    q.length = rest.length + 1 := by
  induction q generalizing e rest with
  | nil => simp at h
  | cons x q ih =>
    rw [pqPopMin] at h
    split at h
    · next hq => cases h; simp [pqPopMin_eq_none.mp hq]
    · next m r hq =>
      split_ifs at h <;> cases h
      · rfl
      · simp [ih hq]

@[simp] theorem builder_add_nodes (b : Builder) (x : Node) : (b.add x).nodes = b.nodes ++ [x] := rfl

@[simp] theorem builder_add_queue (b : Builder) (x : Node) :
    (b.add x).queue = ⟨x.nfreq, BitVec.ofNat 9 b.nodes.length⟩ :: b.queue := rfl

/-- One round of the merge loop on a queue of two or more entries (42_build R136). -/
theorem mergeLoop_succ {fuel : Nat} {b : Builder} {x y : QEntry} {q1 q2 : List QEntry}
    (hx : pqPopMin b.queue = some (x, q1)) (hy : pqPopMin q1 = some (y, q2)) :
    mergeLoop (fuel + 1) b = mergeLoop fuel (Builder.add ⟨q2, b.nodes⟩ (mergedNode x y)) := by
  simp [mergeLoop, hx, hy]

/-- The loop stops at a queue of one entry (42_build R137). -/
theorem mergeLoop_of_length_le_one {b : Builder} (h : b.queue.length ≤ 1) (fuel : Nat) : mergeLoop fuel b = b := by
  cases fuel with
  | zero => rfl
  | succ n =>
    rw [mergeLoop]
    split
    · rfl
    · next x q1 hx =>
      have hl := pqPopMin_length hx
      rw [pqPopMin_eq_none.mpr (List.eq_nil_of_length_eq_zero (by omega))]

/-- With fuel for every entry the loop ends with one entry (42_build R137). -/
theorem mergeLoop_queue_length {b : Builder} (h : b.queue ≠ []) {fuel : Nat} (hf : b.queue.length ≤ fuel + 1) :
    (mergeLoop fuel b).queue.length = 1 := by
  induction fuel generalizing b with
  | zero =>
    have : b.queue.length ≠ 0 := by simpa using h
    simp only [mergeLoop]; omega
  | succ n ih =>
    rw [mergeLoop]
    split
    · next hx => exact absurd (pqPopMin_eq_none.mp hx) h
    · next x q1 hx =>
      have h1 := pqPopMin_length hx
      split
      · next hy => simp [pqPopMin_eq_none.mp hy] at h1; exact h1
      · next y q2 hy =>
        have h2 := pqPopMin_length hy
        exact ih (by simp) (by simp; omega)

/-- Seeding over a list of symbols adds the leaves of those with a count, in order. -/
theorem seed_foldl (t : FreqTable) (l : List Byte) (b : Builder) :
    (l.foldl (fun b x => if symGet t x = 0#32 then b else b.add (leafNode x (symGet t x))) b).nodes =
      b.nodes ++ (l.filter fun x => symGet t x ≠ 0#32).map fun x => leafNode x (symGet t x) := by
  induction l generalizing b with
  | nil => simp
  | cons x l ih =>
    rw [List.foldl_cons, ih]
    by_cases hx : symGet t x = 0#32 <;> simp [hx]

/-- The seeded nodes are the leaves of the table's symbols in ascending order (42_build R133). -/
theorem seed_nodes (t : FreqTable) : (seed t).nodes = (presentSymbols t).map fun x => leafNode x (symGet t x) := by
  simpa [seed, presentSymbols] using seed_foldl t allSymbols ⟨[], []⟩

theorem presentSymbols_length_le (t : FreqTable) : (presentSymbols t).length ≤ 256 := by
  refine (List.length_filter_le _ _).trans ?_
  simp [allSymbols]

/-- What `BUILD` answers, by whether the table is empty (42_build R130). -/
theorem exec_build_eq (s : State) :
    exec .build s =
      if presentSymbols s.freq = [] then
        .next (raise (opcodeOf .build) .emptyAlphabet 0 { s with node := NodeTable.empty, tree := Tree.none })
      else
        .next (finish (opcodeOf .build) .ok 0 { s with
          node := nodeTableOf (mergeAll (seed s.freq)).nodes
          tree := treeOf (presentSymbols s.freq).length (mergeAll (seed s.freq)) }) := by
  by_cases h : presentSymbols s.freq = [] <;> simp [exec, execBuild, seed_nodes, h]

end Sys2Proof.Machine
end

