-- ==== Sys2Proof/Laws/Codes.lean ====
section
/-! SUPPORT. The laws of CODES: the walk at a leaf and at an internal node, and what the command answers. -/

namespace Sys2Proof.Machine

/-- At a leaf the walk writes the accumulated code (43_codes R162). -/
theorem walk_leaf {t : NodeTable} {n : NodeIdx} (hn : n.toNat < 511) (hl : (nodeAt t n.toNat).leaf = true)
    (fuel : Nat) (c : Bits) (ct : CodeTable) :
    walk t (fuel + 1) n c ct = some (setCode ct (nodeAt t n.toNat).sym c) := by
  simp [walk, nodeGet_eq_some t n hn, hl]

/-- At an internal node it walks left with 0, then right with 1 (43_codes R162). -/
theorem walk_fork {t : NodeTable} {n : NodeIdx} (hn : n.toNat < 511) (hl : (nodeAt t n.toNat).leaf = false)
    (fuel : Nat) (c : Bits) (ct : CodeTable) :
    walk t (fuel + 1) n c ct =
      (walk t fuel (nodeAt t n.toNat).left (c ++ [false]) ct).bind
        fun ct' => walk t fuel (nodeAt t n.toNat).right (c ++ [true]) ct' := by
  rw [walk, nodeGet_eq_some t n hn]
  simp only [hl, Bool.false_eq_true, if_false]
  cases walk t fuel (nodeAt t n.toNat).left (c ++ [false]) ct <;> rfl

/-- Where `CODES` goes on, it wrote the tree's table, or the empty one with no tree (43_codes R160). -/
theorem exec_codes_cases {s t : State} (h : exec .codes s = .next t) :
    (s.tree.valid = false ∧ t = finish (opcodeOf .codes) .ok 0 { s with code := CodeTable.empty }) ∨
    (s.tree.valid = true ∧ ∃ ct, codesOf s.node s.tree.root = some ct ∧
      t = finish (opcodeOf .codes) .ok 0 { s with code := ct }) := by
  simp only [exec, execCodes] at h
  split at h
  · next hv =>
    split at h
    · next ct hc => cases h; exact .inr ⟨hv, ct, hc, rfl⟩
    · cases h
  · next hv => cases h; exact .inl ⟨by simpa using hv, rfl⟩

end Sys2Proof.Machine
end

