-- ==== Sys2Proof/Laws/Memory.lean ====
section
/-! SUPPORT. The laws of a buffer: a read after a write, that every operation keeps the canonical form and the range, what
reading a run of entries gives, and that equal reads mean equal buffers. -/

namespace Sys2Proof.Machine

@[simp] theorem memory_read_nil (i : Nat) : Memory.read [] i = none := rfl

theorem memory_read_cons (c : Host.Cell) (m : Memory) (i : Nat) :
    Memory.read (c :: m) i = if c.1 = i then some c.2 else Memory.read m i := rfl

/-- A read of the entry just written gives the byte written. -/
@[simp] theorem memory_read_write_self (m : Memory) (i : Nat) (b : Byte) : (m.write i b).read i = some b := by
  induction m with
  | nil => simp [Memory.write, memory_read_cons]
  | cons c m ih =>
    unfold Memory.write
    split_ifs with h1 h2
    · simp [memory_read_cons]
    · simp [memory_read_cons]
    · simpa [memory_read_cons, h2] using ih

/-- A write leaves every other entry alone. -/
theorem memory_read_write_ne (m : Memory) (b : Byte) {i j : Nat} (h : j ≠ i) : (m.write i b).read j = m.read j := by
  induction m with
  | nil => simp [Memory.write, memory_read_cons, h.symm]
  | cons c m ih =>
    unfold Memory.write
    split_ifs with h1 h2
    · simp [memory_read_cons, h.symm]
    · subst h2; simp [memory_read_cons, h.symm]
    · simp [memory_read_cons, ih]

theorem memory_read_write (m : Memory) (b : Byte) (i j : Nat) :
    (m.write i b).read j = if j = i then some b else m.read j := by
  split_ifs with h
  · subst h; simp
  · exact memory_read_write_ne m b h

/-- What a write may list: the entry written, and what was listed. -/
theorem memory_mem_write {m : Memory} {i : Nat} {b : Byte} {c : Host.Cell} (h : c ∈ m.write i b) :
    c = (i, b) ∨ c ∈ m := by
  induction m with
  | nil => simpa [Memory.write] using h
  | cons d m ih =>
    unfold Memory.write at h
    split_ifs at h with h1 h2
    · simpa using h
    · simp only [List.mem_cons] at h ⊢; tauto
    · simp only [List.mem_cons] at h ⊢
      rcases h with h | h
      · exact .inr (.inl h)
      · exact (ih h).imp_right .inr

theorem memory_wf_nil : Memory.wf [] := .nil

theorem memory_wf_cons {c : Host.Cell} {m : Memory} : Memory.wf (c :: m) ↔ (∀ d ∈ m, c.1 < d.1) ∧ Memory.wf m := by
  simp [Memory.wf]

/-- A write keeps the canonical form. -/
theorem memory_write_wf {m : Memory} (h : Memory.wf m) (i : Nat) (b : Byte) : Memory.wf (m.write i b) := by
  induction m with
  | nil => simp [Memory.write, Memory.wf]
  | cons c m ih =>
    obtain ⟨hc, hm⟩ := memory_wf_cons.mp h
    unfold Memory.write
    split_ifs with h1 h2
    · refine memory_wf_cons.mpr ⟨fun d hd => ?_, h⟩
      rcases List.mem_cons.mp hd with rfl | hd
      · exact h1
      · exact h1.trans (hc d hd)
    · subst h2; exact memory_wf_cons.mpr ⟨hc, hm⟩
    · refine memory_wf_cons.mpr ⟨fun d hd => ?_, ih hm⟩
      rcases memory_mem_write hd with rfl | hd
      · exact lt_of_le_of_ne (not_lt.mp h1) h2
      · exact hc d hd

theorem memory_writeAll_wf {m : Memory} (h : Memory.wf m) (i : Nat) (bs : List Byte) : Memory.wf (m.writeAll i bs) := by
  induction bs generalizing m i with
  | nil => exact h
  | cons b bs ih => exact ih (memory_write_wf h i b) (i + 1)

/-- A run of writes: inside the run the bytes written, elsewhere what was there. -/
theorem memory_read_writeAll (m : Memory) (i : Nat) (bs : List Byte) (j : Nat) :
    (m.writeAll i bs).read j = if i ≤ j ∧ j < i + bs.length then bs[j - i]? else m.read j := by
  induction bs generalizing m i with
  | nil => simp [Memory.writeAll]
  | cons b bs ih =>
    rw [Memory.writeAll, ih, memory_read_write]
    rcases lt_trichotomy j i with h | rfl | h
    · rw [if_neg (by omega), if_neg (by omega), if_neg (by simp; omega)]
    · simp
    · obtain ⟨k, rfl⟩ : ∃ k, j = i + 1 + k := ⟨j - (i + 1), by omega⟩
      have h1 : i + 1 + k - (i + 1) = k := by omega
      have h2 : i + 1 + k - i = k + 1 := by omega
      rw [h1, h2, List.getElem?_cons_succ]
      by_cases hk : k < bs.length
      · rw [if_pos (by omega), if_pos (by simp; omega)]
      · rw [if_neg (by omega), if_neg (by omega), if_neg (by simp; omega)]

theorem memory_mem_writeAll {m : Memory} {i : Nat} {bs : List Byte} {c : Host.Cell} (h : c ∈ m.writeAll i bs) :
    (i ≤ c.1 ∧ c.1 < i + bs.length) ∨ c ∈ m := by
  induction bs generalizing m i with
  | nil => exact .inr h
  | cons b bs ih =>
    rcases ih h with h | h
    · exact .inl (by simp; omega)
    · rcases memory_mem_write h with rfl | h
      · exact .inl (by simp)
      · exact .inr h

/-- Every buffer operation keeps the buffer in form: one write inside the range. -/
theorem bufferOk_write {m : Memory} {cap i : Nat} (h : BufferOk m cap) (hi : i < cap) (b : Byte) :
    BufferOk (m.write i b) cap :=
  ⟨memory_write_wf h.1 i b, fun c hc => by
    rcases memory_mem_write hc with rfl | hc
    · exact hi
    · exact h.2 c hc⟩

/-- A run of writes inside the range. -/
theorem bufferOk_writeAll {m : Memory} {cap i : Nat} (h : BufferOk m cap) {bs : List Byte} (hi : i + bs.length ≤ cap) :
    BufferOk (m.writeAll i bs) cap :=
  ⟨memory_writeAll_wf h.1 i bs, fun c hc => by
    rcases memory_mem_writeAll hc with hc | hc
    · omega
    · exact h.2 c hc⟩

/-- Scrambling lists the same entries. -/
theorem memory_scramble_keys (m : Memory) (d : Nat) : (m.scramble d).1.map Prod.fst = m.map Prod.fst := by
  induction m generalizing d with
  | nil => rfl
  | cons c m ih => simp [Memory.scramble, ih]

theorem bufferOk_scramble {m : Memory} {cap : Nat} (h : BufferOk m cap) (d : Nat) : BufferOk (m.scramble d).1 cap := by
  refine ⟨by simpa [Memory.wf, memory_scramble_keys] using h.1, fun c hc => ?_⟩
  have hk : c.1 ∈ (m.scramble d).1.map Prod.fst := List.mem_map_of_mem hc
  rw [memory_scramble_keys] at hk
  obtain ⟨e, he, hec⟩ := List.mem_map.mp hk
  exact hec ▸ h.2 e he

theorem bufferOk_nil (cap : Nat) : BufferOk [] cap := ⟨memory_wf_nil, by simp⟩

/-- Reading `n` entries gives `n` bytes. -/
@[simp] theorem memory_drawAll_length (m : Memory) (i n d : Nat) : (m.drawAll i n d).1.length = n := by
  induction n generalizing i d with
  | zero => rfl
  | succ n ih => simp [Memory.drawAll, ih]

theorem memory_draw_of_read {m : Memory} {i : Nat} {b : Byte} (h : m.read i = some b) (d : Nat) : m.draw i d = (b, d) := by
  simp [Memory.draw, h]

/-- Reading entries that all hold a byte gives those bytes and draws nothing. -/
theorem memory_drawAll_eq (m : Memory) (xs : List Byte) (i d : Nat)
    (h : ∀ j, (hj : j < xs.length) → m.read (i + j) = some xs[j]) : m.drawAll i xs.length d = (xs, d) := by
  induction xs generalizing i with
  | nil => rfl
  | cons x xs ih =>
    have h0 : m.read i = some x := h 0 (Nat.zero_lt_succ _)
    have ht := ih (i + 1) fun j hj => by
      have := h (j + 1) (by simpa using hj)
      simpa [Nat.add_assoc, Nat.add_comm 1 j] using this
    simp [Memory.drawAll, memory_draw_of_read h0, ht]

/-- A buffer that holds `xs` (70_reset_and_hazards R275) is read as `xs`. -/
theorem drawAll_of_holds {m : Memory} {xs : List Byte} (h : m.holds xs) (d : Nat) :
    m.drawAll 0 xs.length d = (xs, d) :=
  memory_drawAll_eq m xs 0 d (by simpa [Memory.holds] using h)

/-- A run written from entry 0 is held. -/
theorem holds_writeAll (m : Memory) (xs : List Byte) : (m.writeAll 0 xs).holds xs := by
  intro i hi
  rw [memory_read_writeAll]
  simp [hi]

theorem memory_read_eq_none_of_lt {m : Memory} {i : Nat} (h : ∀ c ∈ m, i < c.1) : m.read i = none := by
  induction m with
  | nil => rfl
  | cons c m ih =>
    rw [memory_read_cons, if_neg (h c (by simp)).ne', ih fun d hd => h d (by simp [hd])]

/-- Canonical buffers with equal reads are equal. -/
theorem memory_ext {m n : Memory} (hm : Memory.wf m) (hn : Memory.wf n) (h : ∀ i, m.read i = n.read i) : m = n := by
  induction m generalizing n with
  | nil =>
    cases n with
    | nil => rfl
    | cons d n => simpa [memory_read_cons] using h d.1
  | cons c m ih =>
    obtain ⟨hc, hm⟩ := memory_wf_cons.mp hm
    cases n with
    | nil => simpa [memory_read_cons] using h c.1
    | cons d n =>
      obtain ⟨hd, hn⟩ := memory_wf_cons.mp hn
      have hcd : c.1 = d.1 := by
        rcases lt_trichotomy c.1 d.1 with hlt | heq | hlt
        · have := h c.1
          rw [memory_read_cons, if_pos rfl, memory_read_cons, if_neg hlt.ne',
            memory_read_eq_none_of_lt fun e he => hlt.trans (hd e he)] at this
          cases this
        · exact heq
        · have := h d.1
          rw [memory_read_cons, if_neg hlt.ne', memory_read_cons, if_pos rfl,
            memory_read_eq_none_of_lt fun e he => hlt.trans (hc e he)] at this
          cases this
      have hb : c.2 = d.2 := by simpa [memory_read_cons, hcd] using h c.1
      have ht : m = n := ih hm hn fun i => by
        by_cases hi : c.1 = i
        · rw [memory_read_eq_none_of_lt fun e he => hi ▸ hc e he, memory_read_eq_none_of_lt fun e he => hi ▸ hcd ▸ hd e he]
        · have := h i
          rwa [memory_read_cons, if_neg hi, memory_read_cons, if_neg (hcd ▸ hi)] at this
      rw [ht, Prod.ext hcd hb]

end Sys2Proof.Machine
end

