-- ==== Sys2Proof/Laws/PerInstr.lean ====
section
/-! SUPPORT. Statements made per instruction, as syntax: family CommandWord says that a command's word passes both checks of
30_encoding R93 and names its opcode. -/

namespace Sys2Proof.Laws.CommandWord

/-- The command is well-formed, its word has ZERO 0 and an OPC of the map, and its OPC finds it in the map
(30_encoding R91, R92). -/
def Statement (i : Instr) : Prop :=
  i.wellFormed = true ∧ wordWellFormed (encode i) = true ∧ commandOfOpcode (opcodeOf i) = some i

theorem nop : Statement .nop := by unfold Statement; decide
theorem clear : Statement .clear := by unfold Statement; decide
theorem count : Statement .count := by unfold Statement; decide
theorem build : Statement .build := by unfold Statement; decide
theorem codes : Statement .codes := by unfold Statement; decide
theorem pack : Statement .pack := by unfold Statement; decide
theorem unpack : Statement .unpack := by unfold Statement; decide
theorem eclr : Statement .eclr := by unfold Statement; decide

end Sys2Proof.Laws.CommandWord
end

