-- ==== Sys2Proof/Laws/State.lean ====
section
/-! SUPPORT. What every named operation does to every field of the state, one lemma a field, so that no later proof unfolds a
record update. -/

namespace Sys2Proof.Machine

@[simp] theorem finish_caps (op : Byte) (c : ResultCode) (i : Word) (s : State) :
    (finish op c i s).caps = s.caps := rfl
@[simp] theorem finish_status (op : Byte) (c : ResultCode) (i : Word) (s : State) :
    (finish op c i s).status = statusAfter s.status op c := rfl
@[simp] theorem finish_errInfo (op : Byte) (c : ResultCode) (i : Word) (s : State) :
    (finish op c i s).errInfo = i := rfl
@[simp] theorem finish_srcLen (op : Byte) (c : ResultCode) (i : Word) (s : State) :
    (finish op c i s).srcLen = s.srcLen := rfl
@[simp] theorem finish_artLen (op : Byte) (c : ResultCode) (i : Word) (s : State) :
    (finish op c i s).artLen = s.artLen := rfl
@[simp] theorem finish_dstLen (op : Byte) (c : ResultCode) (i : Word) (s : State) :
    (finish op c i s).dstLen = s.dstLen := rfl
@[simp] theorem finish_tree (op : Byte) (c : ResultCode) (i : Word) (s : State) :
    (finish op c i s).tree = s.tree := rfl
@[simp] theorem finish_freq (op : Byte) (c : ResultCode) (i : Word) (s : State) :
    (finish op c i s).freq = s.freq := rfl
@[simp] theorem finish_node (op : Byte) (c : ResultCode) (i : Word) (s : State) :
    (finish op c i s).node = s.node := rfl
@[simp] theorem finish_code (op : Byte) (c : ResultCode) (i : Word) (s : State) :
    (finish op c i s).code = s.code := rfl
@[simp] theorem finish_src (op : Byte) (c : ResultCode) (i : Word) (s : State) :
    (finish op c i s).src = s.src := rfl
@[simp] theorem finish_art (op : Byte) (c : ResultCode) (i : Word) (s : State) :
    (finish op c i s).art = s.art := rfl
@[simp] theorem finish_dst (op : Byte) (c : ResultCode) (i : Word) (s : State) :
    (finish op c i s).dst = s.dst := rfl
@[simp] theorem finish_pending (op : Byte) (c : ResultCode) (i : Word) (s : State) :
    (finish op c i s).pending = s.pending := rfl
@[simp] theorem finish_responses (op : Byte) (c : ResultCode) (i : Word) (s : State) :
    (finish op c i s).responses = s.responses := rfl
@[simp] theorem finish_drawn (op : Byte) (c : ResultCode) (i : Word) (s : State) :
    (finish op c i s).drawn = s.drawn := rfl

@[simp] theorem raise_caps (op : Byte) (c : ResultCode) (i : Word) (s : State) :
    (raise op c i s).caps = s.caps := rfl
@[simp] theorem raise_status (op : Byte) (c : ResultCode) (i : Word) (s : State) :
    (raise op c i s).status = statusAfter s.status op c := rfl
@[simp] theorem raise_errInfo (op : Byte) (c : ResultCode) (i : Word) (s : State) :
    (raise op c i s).errInfo = i := rfl
@[simp] theorem raise_srcLen (op : Byte) (c : ResultCode) (i : Word) (s : State) :
    (raise op c i s).srcLen = s.srcLen := rfl
@[simp] theorem raise_artLen (op : Byte) (c : ResultCode) (i : Word) (s : State) :
    (raise op c i s).artLen = s.artLen := rfl
@[simp] theorem raise_dstLen (op : Byte) (c : ResultCode) (i : Word) (s : State) :
    (raise op c i s).dstLen = s.dstLen := rfl
@[simp] theorem raise_tree (op : Byte) (c : ResultCode) (i : Word) (s : State) :
    (raise op c i s).tree = s.tree := rfl
@[simp] theorem raise_freq (op : Byte) (c : ResultCode) (i : Word) (s : State) :
    (raise op c i s).freq = s.freq := rfl
@[simp] theorem raise_node (op : Byte) (c : ResultCode) (i : Word) (s : State) :
    (raise op c i s).node = s.node := rfl
@[simp] theorem raise_code (op : Byte) (c : ResultCode) (i : Word) (s : State) :
    (raise op c i s).code = s.code := rfl
@[simp] theorem raise_src (op : Byte) (c : ResultCode) (i : Word) (s : State) :
    (raise op c i s).src = s.src := rfl
@[simp] theorem raise_art (op : Byte) (c : ResultCode) (i : Word) (s : State) :
    (raise op c i s).art = s.art := rfl
@[simp] theorem raise_dst (op : Byte) (c : ResultCode) (i : Word) (s : State) :
    (raise op c i s).dst = s.dst := rfl
@[simp] theorem raise_pending (op : Byte) (c : ResultCode) (i : Word) (s : State) :
    (raise op c i s).pending = s.pending := rfl
@[simp] theorem raise_responses (op : Byte) (c : ResultCode) (i : Word) (s : State) :
    (raise op c i s).responses = s.responses := rfl
@[simp] theorem raise_drawn (op : Byte) (c : ResultCode) (i : Word) (s : State) :
    (raise op c i s).drawn = s.drawn := rfl

@[simp] theorem illegalCommand_caps (w : Word) (s : State) : (illegalCommand w s).caps = s.caps := rfl
@[simp] theorem illegalCommand_status (w : Word) (s : State) :
    (illegalCommand w s).status = statusAfter s.status (w.extractLsb' 0 8) .illegalCommand := rfl
@[simp] theorem illegalCommand_errInfo (w : Word) (s : State) : (illegalCommand w s).errInfo = w := rfl
@[simp] theorem illegalCommand_srcLen (w : Word) (s : State) : (illegalCommand w s).srcLen = s.srcLen := rfl
@[simp] theorem illegalCommand_artLen (w : Word) (s : State) : (illegalCommand w s).artLen = s.artLen := rfl
@[simp] theorem illegalCommand_dstLen (w : Word) (s : State) : (illegalCommand w s).dstLen = s.dstLen := rfl
@[simp] theorem illegalCommand_tree (w : Word) (s : State) : (illegalCommand w s).tree = s.tree := rfl
@[simp] theorem illegalCommand_freq (w : Word) (s : State) : (illegalCommand w s).freq = s.freq := rfl
@[simp] theorem illegalCommand_node (w : Word) (s : State) : (illegalCommand w s).node = s.node := rfl
@[simp] theorem illegalCommand_code (w : Word) (s : State) : (illegalCommand w s).code = s.code := rfl
@[simp] theorem illegalCommand_src (w : Word) (s : State) : (illegalCommand w s).src = s.src := rfl
@[simp] theorem illegalCommand_art (w : Word) (s : State) : (illegalCommand w s).art = s.art := rfl
@[simp] theorem illegalCommand_dst (w : Word) (s : State) : (illegalCommand w s).dst = s.dst := rfl
@[simp] theorem illegalCommand_pending (w : Word) (s : State) : (illegalCommand w s).pending = s.pending := rfl
@[simp] theorem illegalCommand_responses (w : Word) (s : State) : (illegalCommand w s).responses = s.responses := rfl
@[simp] theorem illegalCommand_drawn (w : Word) (s : State) : (illegalCommand w s).drawn = s.drawn := rfl

@[simp] theorem clearSticky_caps (s : State) : (clearSticky s).caps = s.caps := rfl
@[simp] theorem clearSticky_status (s : State) : (clearSticky s).status = stickyCleared s.status := rfl
@[simp] theorem clearSticky_errInfo (s : State) : (clearSticky s).errInfo = s.errInfo := rfl
@[simp] theorem clearSticky_srcLen (s : State) : (clearSticky s).srcLen = s.srcLen := rfl
@[simp] theorem clearSticky_artLen (s : State) : (clearSticky s).artLen = s.artLen := rfl
@[simp] theorem clearSticky_dstLen (s : State) : (clearSticky s).dstLen = s.dstLen := rfl
@[simp] theorem clearSticky_tree (s : State) : (clearSticky s).tree = s.tree := rfl
@[simp] theorem clearSticky_freq (s : State) : (clearSticky s).freq = s.freq := rfl
@[simp] theorem clearSticky_node (s : State) : (clearSticky s).node = s.node := rfl
@[simp] theorem clearSticky_code (s : State) : (clearSticky s).code = s.code := rfl
@[simp] theorem clearSticky_src (s : State) : (clearSticky s).src = s.src := rfl
@[simp] theorem clearSticky_art (s : State) : (clearSticky s).art = s.art := rfl
@[simp] theorem clearSticky_dst (s : State) : (clearSticky s).dst = s.dst := rfl
@[simp] theorem clearSticky_pending (s : State) : (clearSticky s).pending = s.pending := rfl
@[simp] theorem clearSticky_responses (s : State) : (clearSticky s).responses = s.responses := rfl
@[simp] theorem clearSticky_drawn (s : State) : (clearSticky s).drawn = s.drawn := rfl

@[simp] theorem clearTables_caps (s : State) : (clearTables s).caps = s.caps := rfl
@[simp] theorem clearTables_status (s : State) : (clearTables s).status = s.status := rfl
@[simp] theorem clearTables_errInfo (s : State) : (clearTables s).errInfo = s.errInfo := rfl
@[simp] theorem clearTables_srcLen (s : State) : (clearTables s).srcLen = 0 := rfl
@[simp] theorem clearTables_artLen (s : State) : (clearTables s).artLen = 0 := rfl
@[simp] theorem clearTables_dstLen (s : State) : (clearTables s).dstLen = 0 := rfl
@[simp] theorem clearTables_tree (s : State) : (clearTables s).tree = Tree.none := rfl
@[simp] theorem clearTables_freq (s : State) : (clearTables s).freq = FreqTable.empty := rfl
@[simp] theorem clearTables_node (s : State) : (clearTables s).node = NodeTable.empty := rfl
@[simp] theorem clearTables_code (s : State) : (clearTables s).code = CodeTable.empty := rfl
@[simp] theorem clearTables_src (s : State) : (clearTables s).src = s.src := rfl
@[simp] theorem clearTables_art (s : State) : (clearTables s).art = s.art := rfl
@[simp] theorem clearTables_dst (s : State) : (clearTables s).dst = s.dst := rfl
@[simp] theorem clearTables_pending (s : State) : (clearTables s).pending = s.pending := rfl
@[simp] theorem clearTables_responses (s : State) : (clearTables s).responses = s.responses := rfl
@[simp] theorem clearTables_drawn (s : State) : (clearTables s).drawn = s.drawn := rfl

@[simp] theorem resetInput_caps (s : State) : (resetInput s).caps = s.caps := rfl
@[simp] theorem resetInput_status (s : State) : (resetInput s).status = ⟨.ok, false, 0⟩ := rfl
@[simp] theorem resetInput_errInfo (s : State) : (resetInput s).errInfo = 0 := rfl
@[simp] theorem resetInput_srcLen (s : State) : (resetInput s).srcLen = 0 := rfl
@[simp] theorem resetInput_artLen (s : State) : (resetInput s).artLen = 0 := rfl
@[simp] theorem resetInput_dstLen (s : State) : (resetInput s).dstLen = 0 := rfl
@[simp] theorem resetInput_tree (s : State) : (resetInput s).tree = Tree.none := rfl
@[simp] theorem resetInput_freq (s : State) : (resetInput s).freq = FreqTable.empty := rfl
@[simp] theorem resetInput_node (s : State) : (resetInput s).node = NodeTable.empty := rfl
@[simp] theorem resetInput_code (s : State) : (resetInput s).code = CodeTable.empty := rfl
@[simp] theorem resetInput_src (s : State) : (resetInput s).src = [] := rfl
@[simp] theorem resetInput_art (s : State) : (resetInput s).art = [] := rfl
@[simp] theorem resetInput_dst (s : State) : (resetInput s).dst = [] := rfl
@[simp] theorem resetInput_pending (s : State) : (resetInput s).pending = s.pending := rfl
@[simp] theorem resetInput_responses (s : State) : (resetInput s).responses = s.responses := rfl
@[simp] theorem resetInput_drawn (s : State) : (resetInput s).drawn = s.drawn := rfl

@[simp] theorem respond_caps (r : Resp) (v : Word) (s : State) : (respond r v s).caps = s.caps := rfl
@[simp] theorem respond_status (r : Resp) (v : Word) (s : State) : (respond r v s).status = s.status := rfl
@[simp] theorem respond_errInfo (r : Resp) (v : Word) (s : State) : (respond r v s).errInfo = s.errInfo := rfl
@[simp] theorem respond_srcLen (r : Resp) (v : Word) (s : State) : (respond r v s).srcLen = s.srcLen := rfl
@[simp] theorem respond_artLen (r : Resp) (v : Word) (s : State) : (respond r v s).artLen = s.artLen := rfl
@[simp] theorem respond_dstLen (r : Resp) (v : Word) (s : State) : (respond r v s).dstLen = s.dstLen := rfl
@[simp] theorem respond_tree (r : Resp) (v : Word) (s : State) : (respond r v s).tree = s.tree := rfl
@[simp] theorem respond_freq (r : Resp) (v : Word) (s : State) : (respond r v s).freq = s.freq := rfl
@[simp] theorem respond_node (r : Resp) (v : Word) (s : State) : (respond r v s).node = s.node := rfl
@[simp] theorem respond_code (r : Resp) (v : Word) (s : State) : (respond r v s).code = s.code := rfl
@[simp] theorem respond_src (r : Resp) (v : Word) (s : State) : (respond r v s).src = s.src := rfl
@[simp] theorem respond_art (r : Resp) (v : Word) (s : State) : (respond r v s).art = s.art := rfl
@[simp] theorem respond_dst (r : Resp) (v : Word) (s : State) : (respond r v s).dst = s.dst := rfl
@[simp] theorem respond_pending (r : Resp) (v : Word) (s : State) : (respond r v s).pending = s.pending := rfl
@[simp] theorem respond_responses (r : Resp) (v : Word) (s : State) :
    (respond r v s).responses = s.responses ++ [⟨r, v⟩] := rfl
@[simp] theorem respond_drawn (r : Resp) (v : Word) (s : State) : (respond r v s).drawn = s.drawn := rfl

@[simp] theorem packFailed_caps (s : State) : (packFailed s).caps = s.caps := rfl
@[simp] theorem packFailed_status (s : State) : (packFailed s).status = s.status := rfl
@[simp] theorem packFailed_errInfo (s : State) : (packFailed s).errInfo = s.errInfo := rfl
@[simp] theorem packFailed_srcLen (s : State) : (packFailed s).srcLen = s.srcLen := rfl
@[simp] theorem packFailed_artLen (s : State) : (packFailed s).artLen = 0 := rfl
@[simp] theorem packFailed_dstLen (s : State) : (packFailed s).dstLen = s.dstLen := rfl
@[simp] theorem packFailed_tree (s : State) : (packFailed s).tree = s.tree := rfl
@[simp] theorem packFailed_freq (s : State) : (packFailed s).freq = s.freq := rfl
@[simp] theorem packFailed_node (s : State) : (packFailed s).node = s.node := rfl
@[simp] theorem packFailed_code (s : State) : (packFailed s).code = s.code := rfl
@[simp] theorem packFailed_src (s : State) : (packFailed s).src = s.src := rfl
@[simp] theorem packFailed_art (s : State) : (packFailed s).art = (s.art.scramble s.drawn).1 := rfl
@[simp] theorem packFailed_dst (s : State) : (packFailed s).dst = s.dst := rfl
@[simp] theorem packFailed_pending (s : State) : (packFailed s).pending = s.pending := rfl
@[simp] theorem packFailed_responses (s : State) : (packFailed s).responses = s.responses := rfl
@[simp] theorem packFailed_drawn (s : State) : (packFailed s).drawn = (s.art.scramble s.drawn).2 := rfl

@[simp] theorem unpackFailed_caps (s : State) : (unpackFailed s).caps = s.caps := rfl
@[simp] theorem unpackFailed_status (s : State) : (unpackFailed s).status = s.status := rfl
@[simp] theorem unpackFailed_errInfo (s : State) : (unpackFailed s).errInfo = s.errInfo := rfl
@[simp] theorem unpackFailed_srcLen (s : State) : (unpackFailed s).srcLen = s.srcLen := rfl
@[simp] theorem unpackFailed_artLen (s : State) : (unpackFailed s).artLen = s.artLen := rfl
@[simp] theorem unpackFailed_dstLen (s : State) : (unpackFailed s).dstLen = 0 := rfl
@[simp] theorem unpackFailed_tree (s : State) : (unpackFailed s).tree = s.tree := rfl
@[simp] theorem unpackFailed_freq (s : State) : (unpackFailed s).freq = s.freq := rfl
@[simp] theorem unpackFailed_node (s : State) : (unpackFailed s).node = s.node := rfl
@[simp] theorem unpackFailed_code (s : State) : (unpackFailed s).code = s.code := rfl
@[simp] theorem unpackFailed_src (s : State) : (unpackFailed s).src = s.src := rfl
@[simp] theorem unpackFailed_art (s : State) : (unpackFailed s).art = s.art := rfl
@[simp] theorem unpackFailed_dst (s : State) : (unpackFailed s).dst = (s.dst.scramble s.drawn).1 := rfl
@[simp] theorem unpackFailed_pending (s : State) : (unpackFailed s).pending = s.pending := rfl
@[simp] theorem unpackFailed_responses (s : State) : (unpackFailed s).responses = s.responses := rfl
@[simp] theorem unpackFailed_drawn (s : State) : (unpackFailed s).drawn = (s.dst.scramble s.drawn).2 := rfl

@[simp] theorem resetWith_caps (c : Caps) : (State.resetWith c).caps = c := rfl
@[simp] theorem resetWith_status (c : Caps) : (State.resetWith c).status = ⟨.ok, false, 0⟩ := rfl
@[simp] theorem resetWith_errInfo (c : Caps) : (State.resetWith c).errInfo = 0 := rfl
@[simp] theorem resetWith_srcLen (c : Caps) : (State.resetWith c).srcLen = 0 := rfl
@[simp] theorem resetWith_artLen (c : Caps) : (State.resetWith c).artLen = 0 := rfl
@[simp] theorem resetWith_dstLen (c : Caps) : (State.resetWith c).dstLen = 0 := rfl
@[simp] theorem resetWith_tree (c : Caps) : (State.resetWith c).tree = Tree.none := rfl
@[simp] theorem resetWith_freq (c : Caps) : (State.resetWith c).freq = FreqTable.empty := rfl
@[simp] theorem resetWith_node (c : Caps) : (State.resetWith c).node = NodeTable.empty := rfl
@[simp] theorem resetWith_code (c : Caps) : (State.resetWith c).code = CodeTable.empty := rfl
@[simp] theorem resetWith_src (c : Caps) : (State.resetWith c).src = [] := rfl
@[simp] theorem resetWith_art (c : Caps) : (State.resetWith c).art = [] := rfl
@[simp] theorem resetWith_dst (c : Caps) : (State.resetWith c).dst = [] := rfl
@[simp] theorem resetWith_pending (c : Caps) : (State.resetWith c).pending = [] := rfl
@[simp] theorem resetWith_responses (c : Caps) : (State.resetWith c).responses = [] := rfl
@[simp] theorem resetWith_drawn (c : Caps) : (State.resetWith c).drawn = 0 := rfl

@[simp] theorem statusAfter_result (st : Status) (op : Byte) (c : ResultCode) : (statusAfter st op c).result = c := rfl
@[simp] theorem statusAfter_lastop (st : Status) (op : Byte) (c : ResultCode) : (statusAfter st op c).lastop = op := rfl
@[simp] theorem statusAfter_sticky (st : Status) (op : Byte) (c : ResultCode) :
    (statusAfter st op c).sticky = stickyAfter st.sticky c := rfl
@[simp] theorem stickyAfter_ok (b : Bool) : stickyAfter b .ok = b := rfl

/-- Any code but `OK` sets `STICKY` (60_exceptions R245). -/
theorem stickyAfter_of_ne_ok (b : Bool) {c : ResultCode} (h : c ≠ .ok) : stickyAfter b c = true := by
  cases c <;> simp_all [stickyAfter]

@[simp] theorem stickyCleared_sticky (st : Status) : (stickyCleared st).sticky = false := rfl
@[simp] theorem withCommand_pending (w : Word) (s : State) :
    (withCommand w s).pending = .write cmdAddr w :: s.pending := rfl

/-- `raise` is `finish` (60_exceptions R246). -/
theorem raise_eq_finish (op : Byte) (c : ResultCode) (i : Word) (s : State) : raise op c i s = finish op c i s := rfl

end Sys2Proof.Machine
end

