-- ==== Sys2Proof/Laws/Step.lean ====
section
/-! SUPPORT. What one step can do, said once: the port's operations by what they store, and the step by its input. -/

namespace Sys2Proof.Machine

@[simp] theorem aligned_cmdAddr : aligned cmdAddr = true := by decide

@[simp] theorem decodeAddr_cmdAddr (c : Caps) : decodeAddr c cmdAddr.toNat = some (.reg .cmd) := by
  simp [decodeAddr, cmdAddr, regOfSlot]

/-- The only aligned address of `CMD` is 0 (10_state R23). -/
theorem eq_cmdAddr {c : Caps} {a : Word} (ha : aligned a = true) (h : decodeAddr c a.toNat = some (.reg .cmd)) :
    a = cmdAddr := by
  have h4 : a.toNat % 4 = 0 := by simpa [aligned] using ha
  have hlt : a.toNat < 0x28 := decodeAddr_sound h
  rw [decodeAddr, if_pos hlt] at h
  obtain ⟨r, hr, hc⟩ := Option.map_eq_some_iff.mp h
  cases hc
  have hk : a.toNat / 4 = 0 := by
    have hk : a.toNat / 4 < 10 := by omega
    generalize a.toNat / 4 = k at hr hk
    interval_cases k <;> simp_all [regOfSlot]
  exact BitVec.eq_of_toNat_eq (by simp [cmdAddr]; omega)

/-- What a write that is not refused stores (20_memory R65). -/
theorem writeTarget_cases {t : Target} {w : Word} {s s' : State} (h : writeTarget t w s = some s') :
    (t = .reg .srcLen ∧ w.toNat ≤ s.caps.srcCap ∧ s' = { s with srcLen := w }) ∨
    (t = .reg .artLen ∧ w.toNat ≤ s.caps.artCap ∧ s' = { s with artLen := w }) ∨
    (∃ x, t = .freq x ∧ s' = { s with freq := symSet s.freq x w }) ∨
    (∃ i, t = .src i ∧ s' = { s with src := s.src.write i (w.extractLsb' 0 8) }) ∨
    (∃ i, t = .art i ∧ s' = { s with art := s.art.write i (w.extractLsb' 0 8) }) := by
  cases t with
  | reg r => cases r <;> simp_all [writeTarget, writeReg, lengthFits]
  | freq x => simp_all [writeTarget, eq_comm]
  | node n k => simp [writeTarget] at h
  | code x k => simp [writeTarget] at h
  | src i => simp_all [writeTarget, eq_comm]
  | art i => simp_all [writeTarget, eq_comm]
  | dst i => simp [writeTarget] at h

/-- A read changes the answers and the draw counter at most (20_memory R62). -/
theorem hostRead_eq (a : Word) (s : State) :
    ∃ r v d, hostRead a s = { s with responses := s.responses ++ [⟨r, v⟩], drawn := d } := by
  unfold hostRead
  split
  · split
    · exact ⟨_, _, _, rfl⟩
    · exact ⟨_, _, _, rfl⟩
  · exact ⟨_, _, _, rfl⟩

/-- What a write can do when it goes on (20_memory R63): be refused, store, or run a command. -/
theorem hostWrite_cases {run : Word → State → Host.Outcome State Fault Refusal} {a w : Word} {s t : State}
    (h : hostWrite run a w s = .next t) :
    t = busError s ∨
    (∃ g s', decodeAddr s.caps a.toNat = some g ∧ g ≠ .reg .cmd ∧ writeTarget g w s = some s' ∧ t = respond .okay 0 s') ∨
    (∃ s', a = cmdAddr ∧ run w s = .next s' ∧ t = respond .okay 0 s') := by
  unfold hostWrite at h
  split at h
  · next ha =>
    split at h
    · cases h; exact .inl rfl
    · next g hg =>
      split at h
      · next hc =>
        unfold answerCommand at h
        split at h
        · next s' hs => cases h; exact .inr (.inr ⟨s', eq_cmdAddr ha (hc ▸ hg), hs, rfl⟩)
        · cases h
        · cases h
      · next hc =>
        cases h
        unfold storeWrite
        split
        · next s' hs => exact .inr (.inl ⟨g, s', hg, hc, hs, rfl⟩)
        · exact .inl rfl
  · cases h; exact .inl rfl

/-- What the run of a command word can do when it goes on: a command, or `IllegalCommand` (10_state R24). -/
theorem runCommand_cases {w : Word} {s t : State} (h : runCommand w s = .next t) :
    (∃ i, decode w = .ok i ∧ exec i s = .next t) ∨ ((∃ e, decode w = .error e) ∧ t = illegalCommand w s) := by
  unfold runCommand at h
  split at h
  · next i hi => exact .inl ⟨i, hi, h⟩
  · next e he => cases h; exact .inr ⟨⟨e, he⟩, rfl⟩

/-- All that a step can do when it goes on. -/
theorem step_cases {s t : State} (h : step s = .next t) :
    (s.pending = [] ∧ t = s) ∨
    ∃ x rest, s.pending = x :: rest ∧
      ((x = .reset ∧ t = resetInput { s with pending := rest }) ∨
       (∃ a, x = .read a ∧ t = hostRead a { s with pending := rest }) ∨
       (∃ a w, x = .write a w ∧
         (t = busError { s with pending := rest } ∨
          (∃ g s', decodeAddr s.caps a.toNat = some g ∧ g ≠ .reg .cmd ∧
            writeTarget g w { s with pending := rest } = some s' ∧ t = respond .okay 0 s') ∨
          (∃ i s', a = cmdAddr ∧ decode w = .ok i ∧ exec i { s with pending := rest } = .next s' ∧ t = respond .okay 0 s') ∨
          a = cmdAddr ∧ t = respond .okay 0 (illegalCommand w { s with pending := rest })))) := by
  unfold step at h
  split at h
  · next hp => cases h; exact .inl ⟨hp, rfl⟩
  · next x rest hp =>
    refine .inr ⟨x, rest, hp, ?_⟩
    cases x with
    | reset => cases h; exact .inl ⟨rfl, rfl⟩
    | read a => cases h; exact .inr (.inl ⟨a, rfl, rfl⟩)
    | write a w =>
      refine .inr (.inr ⟨a, w, rfl, ?_⟩)
      rcases hostWrite_cases h with h | ⟨g, s', hg, hc, hs, ht⟩ | ⟨s', ha, hr, ht⟩
      · exact .inl h
      · exact .inr (.inl ⟨g, s', hg, hc, hs, ht⟩)
      · rcases runCommand_cases hr with ⟨i, hi, he⟩ | ⟨_, rfl⟩
        · exact .inr (.inr (.inl ⟨i, s', ha, hi, he, ht⟩))
        · exact .inr (.inr (.inr ⟨ha, ht⟩))

/-! The commands that read a buffer, by what they read. -/

theorem exec_count_eq (s : State) (xs : List Byte) (d : Nat) (h : s.src.drawAll 0 s.srcLen.toNat s.drawn = (xs, d)) :
    exec .count s = .next (finish (opcodeOf .count) .ok 0 { s with freq := countAll xs, drawn := d }) := by
  simp [exec, execCount, h]

theorem exec_pack_eq (s : State) (xs : List Byte) (d : Nat) (h : s.src.drawAll 0 s.srcLen.toNat s.drawn = (xs, d)) :
    exec .pack s = .next (packStream xs { s with drawn := d }) := by
  simp [exec, execPack, h]

theorem exec_unpack_eq (s : State) (xs : List Byte) (d : Nat) (h : s.art.drawAll 0 s.artLen.toNat s.drawn = (xs, d)) :
    exec .unpack s = .next (unpackStream xs { s with drawn := d }) := by
  simp [exec, execUnpack, h]

end Sys2Proof.Machine
end

