-- ==== Sys2Proof/Laws/Stream.lean ====
section
/-! SUPPORT. What PACK and UNPACK can do with the entries they read, said once. -/

namespace Sys2Proof.Machine

/-- The three ends of `PACK` (44_pack R175): a miss, an overflow, or the artifact. -/
theorem packStream_cases (xs : List Byte) (s : State) :
    (∃ i, firstMiss s.code xs = some i ∧
      packStream xs s = raise (opcodeOf .pack) .lookupMiss (BitVec.ofNat 32 i) (packFailed s)) ∨
    (firstMiss s.code xs = none ∧ s.caps.artCap < (artifactOf (concatCodes s.code xs)).length ∧
      packStream xs s = raise (opcodeOf .pack) .overflow 0 (packFailed s)) ∨
    (firstMiss s.code xs = none ∧ (artifactOf (concatCodes s.code xs)).length ≤ s.caps.artCap ∧
      packStream xs s = finish (opcodeOf .pack) .ok 0 { s with
        art := s.art.writeAll 0 (artifactOf (concatCodes s.code xs))
        artLen := BitVec.ofNat 32 (artifactOf (concatCodes s.code xs)).length }) := by
  unfold packStream
  split
  · next i hi => exact .inl ⟨i, hi, rfl⟩
  · next hn =>
    by_cases h : s.caps.artCap < (artifactOf (concatCodes s.code xs)).length
    · exact .inr (.inl ⟨hn, h, by simp [h]⟩)
    · exact .inr (.inr ⟨hn, not_lt.mp h, by simp [h]⟩)

/-- The artifact is a header byte and the payload bytes (44_pack R181). -/
@[simp] theorem artifactOf_length (b : Bits) : (artifactOf b).length = (b.length + padFor b.length) / 8 + 1 := by
  simp [artifactOf]

/-- No miss: every symbol of the stream has a valid code (44_pack R176). -/
theorem firstMiss_eq_none {t : CodeTable} {xs : List Byte} :
    firstMiss t xs = none ↔ ∀ x ∈ xs, (symGet t x).valid = true := by
  simp [firstMiss, List.findIdx?_eq_none_iff]

/-- The ends of `UNPACK` (45_unpack R195): a failure with its code and sub-cause, or the decoded symbols. -/
theorem unpackStream_cases (xs : List Byte) (s : State) :
    (∃ x info, x ≠ .ok ∧ (x = .malformedStream ∨ x = .overflow) ∧ unpackStream xs s = unpackFail x info s) ∨
    ∃ header payload, xs = header :: payload ∧ header.toNat ≤ 7 ∧ header.toNat ≤ 8 * payload.length ∧
      (decodeWalk s.code [] (payloadBits payload header.toNat)).2 = [] ∧
      (decodeWalk s.code [] (payloadBits payload header.toNat)).1.length ≤ s.caps.dstCap ∧
      unpackStream xs s = finish (opcodeOf .unpack) .ok 0 { s with
        dst := s.dst.writeAll 0 (decodeWalk s.code [] (payloadBits payload header.toNat)).1
        dstLen := BitVec.ofNat 32 (decodeWalk s.code [] (payloadBits payload header.toNat)).1.length } := by
  unfold unpackStream
  split
  · exact .inl ⟨.malformedStream, 1, by decide, .inl rfl, rfl⟩
  · next header payload =>
    split_ifs with h1 h2
    · exact .inl ⟨.malformedStream, 2, by decide, .inl rfl, rfl⟩
    · exact .inl ⟨.malformedStream, 3, by decide, .inl rfl, rfl⟩
    · by_cases h3 : (decodeWalk s.code [] (payloadBits payload header.toNat)).2 = []
      · by_cases h4 : s.caps.dstCap < (decodeWalk s.code [] (payloadBits payload header.toNat)).1.length
        · exact .inl ⟨.overflow, 1, by decide, .inr rfl, by simp [unpackPayload, h3, h4]⟩
        · exact .inr ⟨header, payload, rfl, not_lt.mp h1, not_lt.mp h2, h3, not_lt.mp h4, by simp [unpackPayload, h3, h4]⟩
      · exact .inl ⟨.malformedStream, 0, by decide, .inl rfl, by simp [unpackPayload, h3]⟩

/-- The decoding walk at a match (45_unpack R200). -/
theorem decodeWalk_match {t : CodeTable} {cand : Bits} {b : Bool} {x : Byte} (h : lookup t (cand ++ [b]) = some x) (bs : Bits) :
    decodeWalk t cand (b :: bs) = (x :: (decodeWalk t [] bs).1, (decodeWalk t [] bs).2) := by
  simp [decodeWalk, h]

/-- The decoding walk with no match: the candidate grows (45_unpack R200). -/
theorem decodeWalk_grow {t : CodeTable} {cand : Bits} {b : Bool} (h : lookup t (cand ++ [b]) = none) (bs : Bits) :
    decodeWalk t cand (b :: bs) = decodeWalk t (cand ++ [b]) bs := by
  simp [decodeWalk, h]

end Sys2Proof.Machine
end

