-- ==== Sys2Proof/Tests/Slice0.lean ====
section
/-! SUPPORT. The model's own tests, each with the vector or example of the spec its expected values come from, and for every
statement with hypotheses a witness that meets them. -/

namespace Sys2Proof.Tests

open Sys2Proof Sys2Proof.Machine

/-! Small states. -/

/-- What holds of the next state; false for a stop. -/
def after (o : Host.Outcome State Fault Refusal) (p : State → Bool) : Bool :=
  match o with
  | .next t => p t
  | .fault _ => false
  | .refused _ => false

theorem next_of_after {o : Host.Outcome State Fault Refusal} {p : State → Bool} (h : after o p = true) :
    ∃ t, o = .next t ∧ p t = true := by
  cases o with
  | next t => exact ⟨t, rfl, h⟩
  | fault f => cases h
  | refused r => cases h

/-- After reset, with `xs` loaded as the source. -/
def srcState (xs : List Byte) : State :=
  { State.reset with src := Memory.writeAll [] 0 xs, srcLen := BitVec.ofNat 32 xs.length }

/-- After reset, with the artifact `xs` loaded. -/
def artState (xs : List Byte) : State :=
  { State.reset with art := Memory.writeAll [] 0 xs, artLen := BitVec.ofNat 32 xs.length }

/-- The table a 3, b 2, c 1 of 95_test_vectors V3. -/
def freqV3 : FreqTable := symSet (symSet (symSet FreqTable.empty 0x61 3) 0x62 2) 0x63 1

/-- A leaf and an internal node with the fields of V3. -/
def leafV (x : Byte) (f : NodeFreq) : Node := { valid := true, leaf := true, sym := x, nfreq := f, left := 0, right := 0 }

def forkV (f : NodeFreq) (l r : NodeIdx) : Node :=
  { valid := true, leaf := false, sym := 0, nfreq := f, left := l, right := r }

/-- V3's tree. -/
def treeV3 : State :=
  { State.reset with
    tree := { valid := true, nnodes := 5, nleaf := 3, root := 4 }
    node := nodeTableOf [leafV 0x61 3, leafV 0x62 2, leafV 0x63 1, forkV 3 2 1, forkV 6 0 3] }

/-- V3's codes: a "0", b "11", c "10", with the words of the V3 row. -/
def codeV3 : CodeTable :=
  setCode (setCode (setCode CodeTable.empty 0x61 [false]) 0x62 [true, true]) 0x63 [true, false]

/-! The checks refuse an ill-formed term for each check (30_encoding R91, R93; 00_scope R6). -/

theorem test_wf_reserved_bits : wordWellFormed 0x00000102#32 = false := by decide
theorem test_wf_opcode : wordWellFormed 0x00000008#32 = false := by decide
theorem test_wf_eclr_word : wordWellFormed 0x00000007#32 = true := by decide
theorem test_wf_src_cap_zero : Caps.wellFormed ⟨0, 1, 1⟩ = false := by decide
theorem test_wf_src_cap_high : Caps.wellFormed ⟨67108865, 1, 1⟩ = false := by decide
theorem test_wf_art_cap_zero : Caps.wellFormed ⟨1, 0, 1⟩ = false := by decide
theorem test_wf_art_cap_high : Caps.wellFormed ⟨1, 67108865, 1⟩ = false := by decide
theorem test_wf_dst_cap_zero : Caps.wellFormed ⟨1, 1, 0⟩ = false := by decide
theorem test_wf_dst_cap_high : Caps.wellFormed ⟨1, 1, 67108865⟩ = false := by decide
theorem test_wf_cap_limits : Caps.wellFormed ⟨1, 67108864, 65536⟩ = true := by decide

/-! Decoding: the words of the opcode table's encodings, bit by bit (30_encoding R92; ZERO in [31:8], OPC in [7:0]). -/

theorem test_decode_nop : decode (0b000000000000000000000000#24 ++ 0b00000000#8) = .ok .nop := by rfl
theorem test_decode_clear : decode (0b000000000000000000000000#24 ++ 0b00000001#8) = .ok .clear := by rfl
theorem test_decode_count : decode (0b000000000000000000000000#24 ++ 0b00000010#8) = .ok .count := by rfl
theorem test_decode_build : decode (0b000000000000000000000000#24 ++ 0b00000011#8) = .ok .build := by rfl
theorem test_decode_codes : decode (0b000000000000000000000000#24 ++ 0b00000100#8) = .ok .codes := by rfl
theorem test_decode_pack : decode (0b000000000000000000000000#24 ++ 0b00000101#8) = .ok .pack := by rfl
theorem test_decode_unpack : decode (0b000000000000000000000000#24 ++ 0b00000110#8) = .ok .unpack := by rfl
theorem test_decode_eclr : decode (0b000000000000000000000000#24 ++ 0b00000111#8) = .ok .eclr := by rfl
theorem test_decode_table_word : decodeTableWord 32 6 = some .unpack := by rfl
theorem test_decode_table_refused : decodeTableWord 32 8 = none := by rfl

/-! One command each. -/

/-- 46_control_commands R220's example: STATUS 0x0000_0311 becomes 0x0000_0010. -/
theorem test_nop_keeps_sticky :
    after (exec .nop { State.reset with status := ⟨.emptyAlphabet, true, 0x03⟩ }) (fun t => t.status.word == 0x10#32) = true := by
  decide

/-- 46_control_commands R221's example, from V3's table. -/
theorem test_clear :
    after (exec .clear { srcState [0x61] with freq := freqV3, status := ⟨.overflow, true, 5⟩ })
      (fun t => t.status.word == 0x100#32 && symGet t.freq 0x61 == 0#32 && t.srcLen == 0#32 && t.src == [(0, 0x61#8)]) = true := by
  decide

/-- 46_control_commands R223's example: STATUS 0x0000_0613 becomes 0x0000_0700. -/
theorem test_eclr :
    after (exec .eclr { State.reset with status := ⟨.malformedStream, true, 0x06⟩, errInfo := 1 })
      (fun t => t.status.word == 0x700#32 && t.errInfo == 0#32) = true := by
  decide

/-- V4: c b a b a a counts a 3, b 2, c 1. -/
theorem test_count :
    after (exec .count (srcState [0x63, 0x62, 0x61, 0x62, 0x61, 0x61]))
      (fun t => symGet t.freq 0x61 == 3#32 && symGet t.freq 0x62 == 2#32 && symGet t.freq 0x63 == 1#32 &&
        symGet t.freq 0x64 == 0#32 && t.status.word == 0x200#32) = true := by
  decide

/-- V8: what the host wrote to FREQ before is discarded. -/
theorem test_count_fresh :
    after (exec .count { srcState [0x61] with freq := symSet FreqTable.empty 0x62 7 })
      (fun t => symGet t.freq 0x61 == 1#32 && symGet t.freq 0x62 == 0#32) = true := by
  decide

/-- V3: a 0x8000_0001 / 0, b 0x8000_0002 / 0xC000_0000, c 0x8000_0002 / 0x8000_0000. -/
theorem test_codes :
    after (exec .codes treeV3)
      (fun t => (symGet t.code 0x61).word 0 == 0x80000001#32 && (symGet t.code 0x61).word 1 == 0#32 &&
        (symGet t.code 0x62).word 0 == 0x80000002#32 && (symGet t.code 0x62).word 1 == 0xC0000000#32 &&
        (symGet t.code 0x63).word 1 == 0x80000000#32 && (symGet t.code 0x64).word 0 == 0#32) = true := by
  decide +kernel

/-- V10: the one leaf z gets "0", 0x8000_0001 / 0. -/
theorem test_codes_one_leaf :
    after (exec .codes { State.reset with
        tree := { valid := true, nnodes := 1, nleaf := 1, root := 0 }, node := nodeTableOf [leafV 0x7A 4] })
      (fun t => (symGet t.code 0x7A).word 0 == 0x80000001#32 && (symGet t.code 0x7A).word 1 == 0#32) = true := by
  decide +kernel

/-- V3: 07 1F 00, ART_LEN 3, STATUS 0x0000_0500. -/
theorem test_pack :
    after (exec .pack { srcState [0x61, 0x61, 0x61, 0x62, 0x62, 0x63] with code := codeV3 })
      (fun t => t.art == [(0, 0x07#8), (1, 0x1F#8), (2, 0x00#8)] && t.artLen == 3#32 && t.status.word == 0x500#32) = true := by
  decide

/-- V38: with ART_CAP 2 the missing symbol at index 5 is reported, not the overflow. -/
theorem test_pack_miss_first :
    after (exec .pack { srcState [0x61, 0x61, 0x61, 0x62, 0x62, 0x64] with code := codeV3, caps := ⟨65536, 2, 65536⟩ })
      (fun t => t.status.word == 0x512#32 && t.errInfo == 5#32 && t.artLen == 0#32) = true := by
  decide

/-! The port. -/

/-- 60_exceptions R244's example: 0x0000_0102 leaves STATUS 0x0000_0215 and does not count. -/
theorem test_illegal_word :
    after (step (withCommand 0x00000102#32 (srcState [0x61])))
      (fun t => t.status.word == 0x215#32 && t.errInfo == 0x102#32 && symGet t.freq 0x61 == 0#32 &&
        t.responses == [⟨.okay, 0⟩]) = true := by
  decide

/-- V61, V62, V63: ART_CAP reads 0x0001_0001; 0x28 is unmapped; 0x6 is misaligned. -/
theorem test_reads :
    after (step { State.reset with pending := [.read 0x20] }) (fun t => t.responses == [⟨.okay, 0x10001⟩]) = true ∧
    after (step { State.reset with pending := [.read 0x28] }) (fun t => t.responses == [⟨.error, 0⟩]) = true ∧
    after (step { State.reset with pending := [.read 0x06] }) (fun t => t.responses == [⟨.error, 0⟩]) = true := by
  decide

/-- V73, V74: SRC[0] keeps the low byte; SRC[65536] does not exist. -/
theorem test_writes :
    after (step { State.reset with pending := [.write 0x10000000 0xABCD1261] }) (fun t => t.src == [(0, 0x61#8)]) = true ∧
    after (step { State.reset with pending := [.write 0x1003FFFC 0x7A] }) (fun t => t.src == [(65535, 0x7A#8)]) = true ∧
    after (step { State.reset with pending := [.write 0x10040000 0x7A] })
      (fun t => t.src == [] && t.responses == [⟨.error, 0⟩]) = true := by
  decide

/-- The host's question for one row: the word of NOP, UNPACK as the first thing after reset. -/
theorem test_first_command :
    after (step (State.reset.withFetchWord 32 0)) (fun t => t.status.word == 0#32 && t.responses == [⟨.okay, 0⟩]) = true ∧
    after (step (State.reset.withFetchWord 32 6)) (fun t => t.status.word == 0x613#32 && t.errInfo == 1#32) = true := by
  decide

/-! Witnesses: states and operands that meet the hypotheses of the statements. -/

theorem nodeAt_treeV3 : nodeAt treeV3.node 0 = leafV 0x61 3 ∧ nodeAt treeV3.node 1 = leafV 0x62 2 ∧
    nodeAt treeV3.node 2 = leafV 0x63 1 ∧ nodeAt treeV3.node 3 = forkV 3 2 1 ∧ nodeAt treeV3.node 4 = forkV 6 0 3 := by
  decide +kernel

/-- V3's tree is a tree of 10_state R40 item 4. -/
theorem treeV3_shape : TreeShape treeV3.tree treeV3.node 3 := by
  obtain ⟨h0, h1, h2, h3, h4⟩ := nodeAt_treeV3
  refine ⟨by decide, by decide, ?_, ?_, ?_, ?_, ?_, ?_⟩
  · intro n hn
    interval_cases n <;> simp [h0, h1, h2, LeafOk, leafV]
  · intro m n hmn hn
    interval_cases n <;> interval_cases m <;> simp [h0, h1, h2, leafV]
  · intro n hn hn'
    interval_cases n <;> simp [h0, h1, h2, h3, h4, InternalOk, leafV, forkV]
  · intro n hn
    have hc : ∀ m, (3 ≤ m ∧ m < 5) ↔ m = 3 ∨ m = 4 := by omega
    interval_cases n
    · exact ⟨4, by simp [IsChild, h4, forkV], fun m hm => by
        rcases (hc m).mp hm.1 with rfl | rfl <;> simp_all [IsChild, forkV]⟩
    · exact ⟨3, by simp [IsChild, h3, forkV], fun m hm => by
        rcases (hc m).mp hm.1 with rfl | rfl <;> simp_all [IsChild, forkV]⟩
    · exact ⟨3, by simp [IsChild, h3, forkV], fun m hm => by
        rcases (hc m).mp hm.1 with rfl | rfl <;> simp_all [IsChild, forkV]⟩
    · exact ⟨4, by simp [IsChild, h4, forkV], fun m hm => by
        rcases (hc m).mp hm.1 with rfl | rfl <;> simp_all [IsChild, forkV]⟩
  · intro m hm hm'
    interval_cases m <;> simp [IsChild, h3, h4, forkV]
  · intro n hn hn'
    have : 5 ≤ n := by omega
    rw [show treeV3.node = nodeTableOf [leafV 0x61 3, leafV 0x62 2, leafV 0x63 1, forkV 3 2 1, forkV 6 0 3] from rfl,
      nodeAt_nodeTableOf _ hn']
    exact List.getD_eq_default _ _ this

/-- V3's code table is in form and prefix-free (10_state R40 item 5). -/
theorem codeV3_ok : CodeOk codeV3 := by
  have ha : codeBits (codeEntryOf [false]) = [false] := codeBits_codeEntryOf (by decide)
  have hb : codeBits (codeEntryOf [true, true]) = [true, true] := codeBits_codeEntryOf (by decide)
  have hc : codeBits (codeEntryOf [true, false]) = [true, false] := codeBits_codeEntryOf (by decide)
  have he : CodeEntry.zero.valid = false := rfl
  refine ⟨fun x => ?_, fun x y hxy hx hy => ?_⟩
  · simp only [codeV3, setCode, symGet_symSet, symGet_code_empty]
    split_ifs
    · exact codeEntryOk_codeEntryOf (by decide) (by decide)
    · exact codeEntryOk_codeEntryOf (by decide) (by decide)
    · exact codeEntryOk_codeEntryOf (by decide) (by decide)
    · exact codeEntryOk_zero
  · simp only [codeV3, setCode, symGet_symSet, symGet_code_empty] at hx hy ⊢
    split_ifs at hx hy ⊢ <;> simp_all

/-- A tree of one leaf, V10's. -/
def treeV10 : State :=
  { State.reset with tree := { valid := true, nnodes := 1, nleaf := 1, root := 0 }, node := nodeTableOf [leafV 0x7A 4] }

theorem treeV10_shape : TreeShape treeV10.tree treeV10.node 1 := by
  have h0 : nodeAt treeV10.node 0 = leafV 0x7A 4 := by decide +kernel
  refine ⟨by decide, by decide, ?_, ?_, ?_, ?_, ?_, ?_⟩
  · intro n hn
    interval_cases n
    simp [h0, LeafOk, leafV]
  · intro m n hmn hn; omega
  · intro n hn hn'; omega
  · intro n hn; omega
  · intro m hm hm'; omega
  · intro n hn hn'
    rw [show treeV10.node = nodeTableOf [leafV 0x7A 4] from rfl, nodeAt_nodeTableOf _ hn']
    exact List.getD_eq_default _ _ (by simpa using hn)

theorem srcState_holds (xs : List Byte) : (srcState xs).src.holds xs := holds_writeAll [] xs

theorem artState_holds (xs : List Byte) : (artState xs).art.holds xs := holds_writeAll [] xs

/-- A state in which every part of the invariants says something: V3's tree and codes, and bytes in all three buffers. -/
def fullState : State :=
  { treeV3 with
    code := codeV3
    src := Memory.writeAll [] 0 [0x61, 0x62]
    srcLen := 2
    art := Memory.writeAll [] 0 [0x07, 0x1F, 0x00]
    artLen := 3
    dst := Memory.writeAll [] 0 [0x61]
    dstLen := 1
    pending := [.write 0x00000000 0x00000000] }

theorem fullState_inv : fullState.Inv where
  caps_ok := by decide
  lengths := by unfold LengthsOk; decide
  tree_ok := ⟨(by intro h; cases h), fun _ => treeV3_shape⟩
  code_ok := codeV3_ok
  src_ok := bufferOk_writeAll (bufferOk_nil _) (by decide)
  art_ok := bufferOk_writeAll (bufferOk_nil _) (by decide)
  dst_ok := bufferOk_writeAll (bufferOk_nil _) (by decide)

theorem witness_StepRunsDecodedCommand : (withCommand 0x00000006#32 State.reset).pending = [.write 0x00000000#32 0x00000006#32] ∧
    decode 0x00000006#32 = .ok .unpack := ⟨rfl, rfl⟩

/-- Both kinds of illegal word, at the edge of each. -/
theorem witness_IllegalCommandEffect : (withCommand 0x00000008#32 State.reset).pending = [.write 0x00000000#32 0x00000008#32] ∧
    decode 0x00000008#32 = .error .unassignedOpcode ∧
    (withCommand 0x00000100#32 State.reset).pending = [.write 0x00000000#32 0x00000100#32] ∧
    decode 0x00000100#32 = .error .reservedBits := ⟨rfl, rfl, rfl, rfl⟩

/-- A command that ends OK, one that ends in an error, CLEAR, and an illegal word. -/
theorem witness_CommandEndRecord :
    (∃ t, runCommand 0x00000000#32 State.reset = .next t ∧ t.status.result = .ok) ∧
    (∃ t, runCommand 0x00000006#32 State.reset = .next t ∧ t.status.result ≠ .ok) ∧
    (∃ t, runCommand (encode .clear) State.reset = .next t ∧ t.status.result = .ok) ∧
    ∃ t, runCommand 0xFFFFFFFF#32 State.reset = .next t ∧ t.status.result ≠ .ok := by
  refine ⟨⟨_, rfl, rfl⟩, ⟨_, rfl, ?_⟩, ⟨_, rfl, rfl⟩, ⟨_, rfl, ?_⟩⟩ <;> decide

/-- STICKY goes from 1 to 0 by reset, CLEAR and ECLR. -/
theorem witness_StickyClearedOnly :
    ∀ x ∈ [HostInput.reset, .write 0x00000000#32 (encode .clear), .write 0x00000000#32 (encode .eclr)],
      ∃ s t : State, s.pending = [x] ∧ step s = .next t ∧ s.status.sticky = true ∧ t.status.sticky = false := by
  intro x hx
  refine ⟨{ State.reset with pending := [x], status := ⟨.overflow, true, 5⟩ }, ?_⟩
  simp only [List.mem_cons, List.not_mem_nil, or_false] at hx
  rcases hx with rfl | rfl | rfl <;> exact ⟨_, rfl, rfl, rfl, rfl⟩

theorem witness_ResetInputRestores : ({ fullState with pending := [.reset] } : State).pending = .reset :: [] := rfl

/-- The least and the greatest capacities. -/
theorem witness_CommandsFromReset : Caps.wellFormed ⟨1, 1, 1⟩ = true ∧ Caps.wellFormed ⟨67108864, 67108864, 67108864⟩ = true := by
  decide

theorem witness_CountCountsOccurrences :
    (srcState [0x61, 0x62, 0x61]).src.holds [0x61, 0x62, 0x61] ∧
    (srcState [0x61, 0x62, 0x61]).srcLen.toNat = [0x61#8, 0x62#8, 0x61#8].length ∧
    (srcState []).src.holds [] ∧ (srcState []).srcLen = 0#32 := ⟨srcState_holds _, rfl, srcState_holds _, rfl⟩

theorem witness_CountIgnoresOrder :
    (srcState [0x61, 0x62]).src.holds [0x61, 0x62] ∧ (srcState [0x61, 0x62]).srcLen.toNat = 2 ∧
    (srcState [0x62, 0x61]).src.holds [0x62, 0x61] ∧ (srcState [0x62, 0x61]).srcLen.toNat = 2 ∧
    [0x61#8, 0x62#8].Perm [0x62, 0x61] := ⟨srcState_holds _, rfl, srcState_holds _, rfl, .swap _ _ _⟩

theorem witness_BuildOfEmptyTable : ∀ x, symGet State.reset.freq x = 0#32 := symGet_freq_empty

/-- A tie in the frequency, broken by the index. -/
theorem witness_PopMinIsLeast :
    [QEntry.mk 3 0, QEntry.mk 2 4, QEntry.mk 2 1] ≠ [] ∧
    ([QEntry.mk 3 0, QEntry.mk 2 4, QEntry.mk 2 1].map QEntry.idx).Nodup := by decide

theorem witness_CodesWithoutTree : State.reset.tree.valid = false := rfl

theorem witness_CodesOfOneLeaf : TreeShape treeV10.tree treeV10.node 1 := treeV10_shape

theorem witness_CodesArePaths : 2 ≤ 3 ∧ TreeShape treeV3.tree treeV3.node 3 := ⟨by decide, treeV3_shape⟩

/-- For CodesPrefixFreeComplete and CodeLengthBounds: one leaf, and more than one. -/
theorem witness_CodesPrefixFreeComplete :
    TreeShape treeV10.tree treeV10.node 1 ∧ TreeShape treeV3.tree treeV3.node 3 ∧ 2 ≤ 3 :=
  ⟨treeV10_shape, treeV3_shape, by decide⟩

/-- CODES goes on over V3's tree; a host write to FREQ and to SRC_LEN leaves TREE and NODE; and a step on another command goes
on. -/
theorem witness_CodesTwiceSameTable :
    (∃ t, exec .codes treeV3 = .next t) ∧
    (let s' : State := { treeV3 with freq := freqV3, srcLen := 1 }
     s'.tree = treeV3.tree ∧ s'.node = treeV3.node) ∧
    let s := withCommand (encode .nop) treeV3
    (∃ t, step s = .next t) ∧
    ∀ rest, s.pending ≠ .reset :: rest ∧ s.pending ≠ .write 0x00000000#32 (encode .build) :: rest ∧
      s.pending ≠ .write 0x00000000#32 (encode .clear) :: rest := by
  have h : after (exec .codes treeV3) (fun _ => true) = true := by decide +kernel
  have hs : after (step (withCommand (encode .nop) treeV3)) (fun _ => true) = true := by decide
  refine ⟨(next_of_after h).imp fun _ ht => ht.1, ⟨rfl, rfl⟩, (next_of_after hs).imp fun _ ht => ht.1, fun rest => ?_⟩
  simp [withCommand, encode]

/-- Eight bits with only the first set are the byte 0x80 (00_scope R10), as the first bit of a code is bit 7 of its byte. -/
theorem witness_BytesMsbFirst : [true, false, false, false, false, false, false, false].length = 8 ∧
    byteOf [true, false, false, false, false, false, false, false] = 0x80#8 := by decide

/-- 30_encoding R102's code "101" reads 0xA000_0000 in word 1; and a code can have bit 254, the last there is, which is bit 1
of word 8. -/
theorem witness_CodeEntryLayout :
    (codeEntryOf [true, false, true]).word 1 = 0xA0000000#32 ∧
    32 * (8 - 1) + 30 < (codeEntryOf (List.replicate 254 false ++ [true])).len.toNat ∧
    (codeEntryOf (List.replicate 254 false ++ [true])).word 8 = 0x00000002#32 := by
  decide +kernel

/-- An artifact that exactly fits (V39's capacity). -/
theorem witness_PackWritesArtifact :
    let s : State := { srcState [0x61, 0x61, 0x61, 0x62, 0x62, 0x63] with code := codeV3, caps := ⟨65536, 3, 65536⟩ }
    s.src.holds [0x61, 0x61, 0x61, 0x62, 0x62, 0x63] ∧ s.srcLen.toNat = 6 ∧
    (∀ x ∈ [0x61#8, 0x61, 0x61, 0x62, 0x62, 0x63], (symGet s.code x).valid = true) ∧
    1 + (([0x61#8, 0x61, 0x61, 0x62, 0x62, 0x63].flatMap fun x => codeBits (symGet s.code x)).length + 7) / 8 ≤
      s.caps.artCap := ⟨srcState_holds _, rfl, by decide, by decide⟩

/-- The miss at the first and at the last index (V35, V34). -/
theorem witness_PackReportsFirstMiss :
    let s : State := { srcState [0x64, 0x61] with code := codeV3 }
    let s' : State := { srcState [0x61, 0x64] with code := codeV3 }
    (s.src.holds [0x64, 0x61] ∧ s.srcLen.toNat = 2 ∧ (symGet s.code 0x64).valid = false) ∧
    s'.src.holds [0x61, 0x64] ∧ s'.srcLen.toNat = 2 ∧ (symGet s'.code 0x64).valid = false ∧
    (symGet s'.code 0x61).valid = true :=
  ⟨⟨srcState_holds _, rfl, by decide⟩, srcState_holds _, rfl, by decide, by decide⟩

/-- One byte too many (V37). -/
theorem witness_PackOverflows :
    let s : State := { srcState [0x61, 0x61, 0x61, 0x62, 0x62, 0x63] with code := codeV3, caps := ⟨65536, 2, 65536⟩ }
    s.src.holds [0x61, 0x61, 0x61, 0x62, 0x62, 0x63] ∧ s.srcLen.toNat = 6 ∧
    (∀ x ∈ [0x61#8, 0x61, 0x61, 0x62, 0x62, 0x63], (symGet s.code x).valid = true) ∧
    s.caps.artCap < 1 + (([0x61#8, 0x61, 0x61, 0x62, 0x62, 0x63].flatMap fun x => codeBits (symGet s.code x)).length + 7) / 8 :=
  ⟨srcState_holds _, rfl, by decide, by decide⟩

theorem witness_PackOfOneSymbol :
    let s : State := { srcState [0x61] with code := codeV3, caps := ⟨1, 2, 1⟩ }
    1 ≤ 1 ∧ s.src.holds (List.replicate 1 0x61) ∧ s.srcLen.toNat = 1 ∧ (symGet s.code 0x61).valid = true ∧
    codeBits (symGet s.code 0x61) = [false] ∧ 1 + (1 + 7) / 8 ≤ s.caps.artCap ∧ s.caps.wellFormed = true :=
  ⟨by decide, srcState_holds _, rfl, by decide, by decide, by decide, by decide⟩

theorem witness_EmptyArtifact :
    ((srcState []).srcLen = 0#32 ∧ 1 ≤ (srcState []).caps.artCap) ∧
    (artState [0x00]).artLen = 1#32 ∧ (artState [0x00]).art.read 0 = some 0x00#8 := by decide

/-- No artifact; header 8, the least that is too great; header 1 over no payload, the least that is too long. -/
theorem witness_UnpackHeaderFaults :
    (artState []).artLen = 0#32 ∧
    ((artState [0x08, 0x1F]).art.holds [0x08, 0x1F] ∧ (artState [0x08, 0x1F]).artLen.toNat = 2 ∧ 7 < (0x08#8).toNat) ∧
    (artState [0x01]).art.holds [0x01] ∧ (artState [0x01]).artLen.toNat = 1 ∧ (0x01#8).toNat ≤ 7 ∧
    8 * ([] : List Byte).length < (0x01#8).toNat :=
  ⟨rfl, ⟨artState_holds _, rfl, by decide⟩, artState_holds _, rfl, by decide, by decide⟩

/-- V40: the last padding bit set. -/
theorem witness_UnpackIgnoresPadding :
    (artState [0x01, 0xDC]).art.holds [0x01, 0xDC] ∧ (artState [0x01, 0xDD]).art.holds [0x01, 0xDD] ∧
    (artState [0x01, 0xDC]).artLen.toNat = 2 ∧
    ([0xDC#8].flatMap bitsOf).take (8 * 1 - (0x01#8).toNat) = ([0xDD#8].flatMap bitsOf).take (8 * 1 - (0x01#8).toNat) :=
  ⟨artState_holds _, artState_holds _, rfl, by decide⟩

theorem witness_LookupIsReverseTable : CodeOk codeV3 := codeV3_ok

/-- V10's table over zero bits, and V49's artifact with a 1 bit. -/
theorem witness_UnpackWithOneCode :
    let t := setCode CodeTable.empty 0x7A [false]
    (symGet t 0x7A).valid = true ∧ codeBits (symGet t 0x7A) = [false] ∧ (∀ y, y ≠ 0x7A → (symGet t y).valid = false) ∧
    (artState [0x04, 0x00]).art.holds [0x04, 0x00] ∧ (artState [0x04, 0x00]).artLen.toNat = 2 ∧
    (∀ b ∈ ([0x00#8].flatMap bitsOf).take (8 * 1 - (0x04#8).toNat), b = false) ∧
    (artState [0x04, 0x10]).art.holds [0x04, 0x10] ∧ (artState [0x04, 0x10]).artLen.toNat = 2 ∧
    true ∈ ([0x10#8].flatMap bitsOf).take (8 * 1 - (0x04#8).toNat) := by
  refine ⟨by decide, by decide, fun y hy => ?_, artState_holds _, rfl, by decide, artState_holds _, rfl,
    by decide⟩
  rw [setCode, symGet_symSet_ne _ _ hy, symGet_code_empty]
  rfl

theorem witness_RoundTrip :
    (srcState [0x61]).caps.wellFormed = true ∧ (srcState [0x61]).src.holds [0x61] ∧ (srcState [0x61]).srcLen.toNat = 1 ∧
    1 ≤ (srcState [0x61]).caps.srcCap ∧ 1 ≤ (srcState [0x61]).caps.dstCap ∧
    (srcState []).srcLen = 0#32 ∧ 1 ≤ (srcState []).caps.artCap :=
  ⟨by decide, srcState_holds _, rfl, by decide, by decide, rfl, by decide⟩

/-- For StepKeepsInvariants and EveryAccessAnswered. -/
theorem witness_StepKeepsInvariants : fullState.Inv ∧ fullState.pending = [.write 0x00000000 0x00000000] ∧
    ∃ t, step fullState = .next t := ⟨fullState_inv, rfl, _, rfl⟩

theorem witness_ResetMeetsInvariants : Caps.wellFormed ⟨1, 1, 1⟩ = true ∧ Config.defaultCaps.wellFormed = true := by decide

/-- With no tree every command goes on. -/
theorem exec_next_of_no_tree (i : Instr) {s : State} (h : s.tree.valid = false) : ∃ t, exec i s = .next t := by
  cases i
  case build => simp only [exec, execBuild]; split <;> exact ⟨_, rfl⟩
  case codes => simp only [exec, execCodes, h]; exact ⟨_, rfl⟩
  all_goals exact ⟨_, rfl⟩

theorem witness_CommandsWriteOnlyTheirRow : ∀ i, ∃ t, exec i State.reset = .next t := fun i => exec_next_of_no_tree i rfl

/-- Two states that differ outside the row and run every command. -/
theorem witness_CommandsReadOnlyTheirRow :
    let s := State.reset
    let s' : State := { State.reset with dstLen := 1, errInfo := 7 }
    s.caps = s'.caps ∧ s.drawn = s'.drawn ∧ s.srcLen = s'.srcLen ∧ s.freq = s'.freq ∧ s.tree = s'.tree ∧ s.node = s'.node ∧
    s.code = s'.code ∧ s.artLen = s'.artLen ∧ s.src = s'.src ∧ s.art = s'.art ∧
    (∀ i ∈ [Instr.count, .build, .codes, .pack, .unpack], ∃ t t', exec i s = .next t ∧ exec i s' = .next t') := by
  refine ⟨rfl, rfl, rfl, rfl, rfl, rfl, rfl, rfl, rfl, rfl, fun i _ => ?_⟩
  obtain ⟨t, ht⟩ := exec_next_of_no_tree i (s := State.reset) rfl
  obtain ⟨t', ht'⟩ := exec_next_of_no_tree i (s := { State.reset with dstLen := 1, errInfo := 7 }) rfl
  exact ⟨t, t', ht, ht'⟩

/-- The first and last address of every hole of the map, with the default capacities, and a misaligned address. -/
theorem witness_BadAddressRefused :
    Config.defaultCaps.wellFormed = true ∧
    (∀ a ∈ [0x28, 0x3FF, 0x800, 0x1FFF, 0x3FF0, 0x3FFF, 0x8000, 0x0FFFFFFF, 0x10040000, 0x1FFFFFFF, 0x20040004, 0x2FFFFFFF,
      0x30040000, 0x3FFFFFFF, 0x40000000, 0xFFFFFFFF], Unmapped Config.defaultCaps a) ∧
    (0x00000006#32).extractLsb' 0 2 ≠ 0#2 := by
  simp only [Unmapped]
  decide

/-- The first and last address of every read-only range. -/
theorem witness_ReadOnlyWriteRefused :
    Config.defaultCaps.wellFormed = true ∧
    (∀ a ∈ [0x04, 0x08, 0x14, 0x18, 0x1C, 0x20, 0x24, 0x2000, 0x3FEF, 0x4000, 0x7FFF, 0x30000000, 0x3003FFFF],
      ReadOnly Config.defaultCaps a) := by
  simp only [ReadOnly]
  decide

/-- The last entry of every window is in range, and its address is a host word. -/
theorem witness_windows :
    (0xFF#8).toNat = 255 ∧ 510 ≤ 510 ∧ 0x2000 + 16 * 510 + 4 * 3 < 2 ^ 32 ∧ 0x4000 + 64 * 255 + 4 * 15 = 0x7FFC ∧
    65535 < Config.defaultCaps.srcCap ∧ 65536 < Config.defaultCaps.artCap ∧ 65535 < Config.defaultCaps.dstCap ∧
    (65536#32).toNat ≤ Config.defaultCaps.srcCap ∧ ¬ (65537#32).toNat ≤ Config.defaultCaps.srcCap ∧
    (65537#32).toNat ≤ Config.defaultCaps.artCap ∧ ¬ (65538#32).toNat ≤ Config.defaultCaps.artCap := by
  decide

/-- For ReadAndIdleChangeNothing, RegisterAndTableReads, BufferReads and HostWritesStore: each clause's input can be the next
one, and a buffer entry can be written or not. -/
theorem witness_next_input (x : HostInput) : ∃ s : State, s.caps.wellFormed = true ∧ s.pending = [x] ∧
    s.src.read 0 = some 0x61#8 ∧ s.src.read 1 = none ∧ s.art.read 65536 = none ∧ s.dst.read 0 = none :=
  ⟨{ srcState [0x61] with pending := [x] }, rfl, rfl, rfl, rfl, rfl, rfl⟩

/-! The evaluations that take longest, last: tests of BUILD and UNPACK from the spec's vectors, and the witnesses of their
statements. -/

/-- V3: TREE 0x8014_0604, node 3 word 2 0x8002_0200, node 4 word 2 0x8006_0000. -/
theorem test_build :
    after (exec .build { State.reset with freq := freqV3 })
      (fun t => t.tree.word == 0x80140604#32 && (nodeAt t.node 3).word 2 == 0x80020200#32 &&
        (nodeAt t.node 4).word 2 == 0x80060000#32 && (nodeAt t.node 4).word 0 == 6#32 && t.status.word == 0x300#32) = true := by
  decide +kernel

/-- V19: the 40-bit sum of two counts of 0xFFFF_FFFF. -/
theorem test_build_wide_sum :
    after (exec .build { State.reset with
        freq := symSet (symSet FreqTable.empty 0 0xFFFFFFFF) 1 0xFFFFFFFF })
      (fun t => t.tree.word == 0x800C0402#32 && (nodeAt t.node 2).word 0 == 0xFFFFFFFE#32 &&
        (nodeAt t.node 2).word 1 == 1#32 && (nodeAt t.node 2).word 2 == 0x80020000#32) = true := by
  decide +kernel

/-- V3: a a a b b c, DST_LEN 6, STATUS 0x0000_0600. -/
theorem test_unpack :
    after (exec .unpack { artState [0x07, 0x1F, 0x00] with code := codeV3 })
      (fun t => t.dst.map Prod.snd == [0x61#8, 0x61#8, 0x61#8, 0x62#8, 0x62#8, 0x63#8] && t.dstLen == 6#32 &&
        t.status.word == 0x600#32) = true := by
  decide +kernel

/-- V47: seven a, then candidate "1" is left: MalformedStream with ERR_INFO 0. -/
theorem test_unpack_trailing :
    after (exec .unpack { artState [0x00, 0x01] with code := codeV3 })
      (fun t => t.status.word == 0x613#32 && t.errInfo == 0#32 && t.dstLen == 0#32) = true := by
  decide +kernel

/-- For BuildMakesTree, BuildSeedsInSymbolOrder, BuildMergesTwoLeast, BuildSumsExact. -/
theorem witness_BuildMakesTree : presentSymbols freqV3 = [0x61, 0x62, 0x63] := by decide

theorem witness_BuildOfOneSymbol : presentSymbols (symSet FreqTable.empty 0x7A 4) = [0x7A] := by decide

/-- No merge yet, and the last merge. -/
theorem witness_QueueAfterMerges : 0 + 1 ≤ (presentSymbols freqV3).length ∧ 2 + 1 ≤ (presentSymbols freqV3).length := by
  rw [witness_BuildMakesTree]; decide

theorem witness_BuildIsOptimal :
    2 ≤ (presentSymbols freqV3).length ∧
    (WeightTree.fork (.fork (.leaf 3) (.leaf 2)) (.leaf 1)).leaves.Perm
      ((presentSymbols freqV3).map fun x => (symGet freqV3 x).toNat) := by
  rw [witness_BuildMakesTree]; decide

/-- A stream that exactly fills DST (V55's capacity). -/
theorem witness_UnpackDecodes :
    let s : State := { artState [0x07, 0x1F, 0x00] with code := codeV3, caps := ⟨65536, 65537, 6⟩ }
    let out : List Byte := [0x61, 0x61, 0x61, 0x62, 0x62, 0x63]
    s.art.holds [0x07, 0x1F, 0x00] ∧ s.artLen.toNat = 3 ∧ (0x07#8).toNat ≤ 7 ∧ (0x07#8).toNat ≤ 8 * 2 ∧ CodeOk s.code ∧
    (∀ x ∈ out, (symGet s.code x).valid = true) ∧
    ([0x1F#8, 0x00].flatMap bitsOf).take (8 * 2 - (0x07#8).toNat) = (out.flatMap fun x => codeBits (symGet s.code x)) ∧
    out.length ≤ s.caps.dstCap :=
  ⟨artState_holds _, rfl, by decide, by decide, codeV3_ok, by decide, by decide, by decide⟩

/-- One symbol too many. -/
theorem witness_UnpackOverflows :
    let s : State := { artState [0x07, 0x1F, 0x00] with code := codeV3, caps := ⟨65536, 65537, 5⟩ }
    let out : List Byte := [0x61, 0x61, 0x61, 0x62, 0x62, 0x63]
    s.art.holds [0x07, 0x1F, 0x00] ∧ s.artLen.toNat = 3 ∧ CodeOk s.code ∧
    (∀ x ∈ out, (symGet s.code x).valid = true) ∧
    ([0x1F#8, 0x00].flatMap bitsOf).take (8 * 2 - (0x07#8).toNat) = (out.flatMap fun x => codeBits (symGet s.code x)) ∧
    s.caps.dstCap < out.length :=
  ⟨artState_holds _, rfl, codeV3_ok, by decide, by decide, by decide⟩

/-- V47: seven a, then "1". -/
theorem witness_UnpackTrailingCandidate :
    let s : State := { artState [0x00, 0x01] with code := codeV3 }
    let out : List Byte := [0x61, 0x61, 0x61, 0x61, 0x61, 0x61, 0x61]
    s.art.holds [0x00, 0x01] ∧ s.artLen.toNat = 2 ∧ (0x00#8).toNat ≤ 7 ∧ (0x00#8).toNat ≤ 8 * 1 ∧ CodeOk s.code ∧
    (∀ x ∈ out, (symGet s.code x).valid = true) ∧
    ([0x01#8].flatMap bitsOf).take (8 * 1 - (0x00#8).toNat) =
      (out.flatMap fun x => codeBits (symGet s.code x)) ++ [true] ∧ [true] ≠ [] ∧
    ∀ x, (symGet s.code x).valid = true → ¬ codeBits (symGet s.code x) <+: [true] := by
  refine ⟨artState_holds _, rfl, by decide, by decide, codeV3_ok, by decide, by decide, by decide, ?_⟩
  decide

end Sys2Proof.Tests
end

section
/-! PROOF. Bit-strings as numbers and bytes (00_scope R10): a bit-string's number is the sum of its bits' weights, leftmost bit
most significant, for every length; the byte of eight bits is that number. -/

namespace Sys2Proof.Machine

theorem natOfBits_append_singleton (b : Bits) (x : Bool) : natOfBits (b ++ [x]) = 2 * natOfBits b + x.toNat := by
  simp [natOfBits]

/-- The first bit is the most significant one. -/
theorem natOfBits_cons (x : Bool) (b : Bits) : natOfBits (x :: b) = x.toNat * 2 ^ b.length + natOfBits b := by
  induction b using List.reverseRecOn with
  | nil => simp [natOfBits]
  | append_singleton b y ih =>
    rw [← List.cons_append, natOfBits_append_singleton, natOfBits_append_singleton, ih, List.length_append,
      List.length_singleton, Nat.pow_succ]
    ring

theorem natOfBits_lt (b : Bits) : natOfBits b < 2 ^ b.length := by
  induction b using List.reverseRecOn with
  | nil => decide
  | append_singleton b x ih =>
    have hx : x.toNat ≤ 1 := Bool.toNat_le x
    rw [natOfBits_append_singleton, List.length_append, List.length_singleton, Nat.pow_succ]
    omega

theorem natOfBits_eq_sum (b : Bits) :
    natOfBits b = ((List.range b.length).map fun i => (b.getD i false).toNat * 2 ^ (b.length - 1 - i)).sum := by
  induction b with
  | nil => rfl
  | cons x b ih =>
    rw [natOfBits_cons, ih, List.length_cons, List.range_succ_eq_map]
    simp [Function.comp_def, Nat.sub_sub, Nat.add_comm]

/-- A byte holds the number of its eight bits, none of it cut off. -/
theorem byteOf_toNat {b : Bits} (h : b.length = 8) : (byteOf b).toNat = natOfBits b := by
  have hlt : natOfBits b < 2 ^ 8 := h ▸ natOfBits_lt b
  rw [byteOf, BitVec.toNat_ofNat, Nat.mod_eq_of_lt hlt]

theorem bitsOf_getElem? (v : Byte) {i : Nat} (hi : i < 8) : (bitsOf v)[i]? = some (v.getLsbD (7 - i)) := by
  simp [bitsOf, hi]

/-- Settles O60: eight bits' number is the sum of their weights and fits in a byte; the bits of a byte are read off
`bitsOf`, and `byteOf_bitsOf` is the round trip. -/
theorem bytesMsbFirst : Obligations.BytesMsbFirst := by
  refine ⟨fun b h => ?_, fun v => ⟨bitsOf_length v, fun _ hi => bitsOf_getElem? v hi, byteOf_bitsOf v⟩⟩
  rw [byteOf_toNat h, natOfBits_eq_sum, h]

end Sys2Proof.Machine
end

section
/-! PROOF. BUILD makes a tree of 10_state R40 item 4 from every table that is not empty (42_build R141). Seeding and every
merge keep `Builder.Merging`: each node is in the queue or is a child, exactly one of the two and once, the queue's
frequencies are those of its nodes and add up to the table's total, and each node above the leaves is in form. -/

namespace Sys2Proof.Machine

/-! The parts: popping, the node memory of a growing list, and a node's children. -/

/-- Popping takes an entry out and changes no other (42_build R135). -/
theorem pqPopMin_perm {q : List QEntry} {e : QEntry} {rest : List QEntry} (h : pqPopMin q = some (e, rest)) :
    q.Perm (e :: rest) := by
  induction q generalizing e rest with
  | nil => cases h
  | cons x q ih =>
    rw [pqPopMin] at h
    split at h
    · next hq => cases h; rw [pqPopMin_eq_none.mp hq]
    · next m r hq =>
      split_ifs at h <;> cases h
      · exact .rfl
      · exact ((ih hq).cons x).trans (.swap _ _ _)

theorem nodeAt_nodeTableOf_append {l : List Node} {n : Nat} (h : n < l.length) (r : List Node) :
    nodeAt (nodeTableOf (l ++ r)) n = nodeAt (nodeTableOf l) n := by
  by_cases hn : n < 511
  · rw [nodeAt_nodeTableOf _ hn, nodeAt_nodeTableOf _ hn, List.getD_append _ _ _ _ h]
  · simp [nodeAt, hn]

theorem nodeAt_nodeTableOf_length {l : List Node} (h : l.length < 511) (x : Node) :
    nodeAt (nodeTableOf (l ++ [x])) l.length = x := by
  simp [nodeAt_nodeTableOf _ h]

/-- An index below 511 fits in its 9 bits (10_state R33). -/
theorem nodeIdx_toNat {n : Nat} (h : n < 511) : (BitVec.ofNat 9 n).toNat = n := by
  rw [BitVec.toNat_ofNat, Nat.mod_eq_of_lt (by omega)]

/-- A node's children, left first; a leaf has none (10_state R33). -/
def Node.children (x : Node) : List Nat := if x.leaf then [] else [x.left.toNat, x.right.toNat]

@[simp] theorem leafNode_children (x : Byte) (f : Word) : (leafNode x f).children = [] := rfl

@[simp] theorem mergedNode_children (a b : QEntry) : (mergedNode a b).children = [a.idx.toNat, b.idx.toNat] := rfl

/-- Among internal nodes, a node's list of children says whose child a node is. -/
theorem mem_children_iff {t : NodeTable} {n m : Nat} (h : (nodeAt t m).leaf = false) :
    n ∈ (nodeAt t m).children ↔ IsChild t n m := by
  simp [Node.children, h, IsChild, eq_comm]

/-- What makes a node internal stays when nodes are added above it. -/
theorem internalOk_append {l : List Node} {n : Nat} (hn : n < l.length) (r : List Node)
    (h : InternalOk (nodeTableOf l) n) : InternalOk (nodeTableOf (l ++ r)) n := by
  unfold InternalOk at h ⊢
  simp only [nodeAt_nodeTableOf_append hn] at h ⊢
  obtain ⟨hv, hl, hs, hlt, hrt, hne, hf⟩ := h
  exact ⟨hv, hl, hs, hlt, hrt, hne, by
    rw [hf, nodeAt_nodeTableOf_append (hlt.trans hn), nodeAt_nodeTableOf_append (hrt.trans hn)]⟩

/-! The invariant of the queue and the nodes. -/

/-- The indices in the queue, then every node's children. -/
def Builder.indices (b : Builder) : List Nat := b.queue.map (fun e => e.idx.toNat) ++ b.nodes.flatMap Node.children

/-- The sum of the queue's frequencies. -/
def Builder.queueSum (b : Builder) : Nat := (b.queue.map fun e => e.freq.toNat).sum

/-- A builder over `k` leaves with counts adding up to `total`, after any number of merges (42_build R142, R145). -/
structure Builder.Merging (k total : Nat) (b : Builder) : Prop where
  cover : b.indices.Perm (List.range b.nodes.length)
  entry : ∀ e ∈ b.queue, e.freq = (nodeAt (nodeTableOf b.nodes) e.idx.toNat).nfreq
  size : b.nodes.length + b.queue.length = 2 * k
  sum_eq : b.queueSum = total
  internal : ∀ m, k ≤ m → m < b.nodes.length → InternalOk (nodeTableOf b.nodes) m

section
variable {b : Builder} {x : Node}

@[simp] theorem builder_add_queueSum : (b.add x).queueSum = x.nfreq.toNat + b.queueSum := by
  simp [Builder.queueSum]

theorem idx_lt_of_cover (h : b.indices.Perm (List.range b.nodes.length)) {e : QEntry} (he : e ∈ b.queue) :
    e.idx.toNat < b.nodes.length :=
  List.mem_range.mp <| h.mem_iff.mp <| List.mem_append_left _ <| List.mem_map_of_mem he

/-- Adding a node whose children were nowhere else puts its own index where theirs were. -/
theorem cover_add (hn : b.nodes.length < 511)
    (h : (x.children ++ b.indices).Perm (List.range b.nodes.length)) :
    (b.add x).indices.Perm (List.range (b.add x).nodes.length) := by
  have hadd : (b.add x).indices = b.nodes.length :: (b.indices ++ x.children) := by
    simp [Builder.indices, nodeIdx_toNat hn, -BitVec.toNat_ofNat]
  rw [hadd, builder_add_nodes, List.length_append, List.length_singleton, List.range_succ]
  exact ((List.perm_append_comm.trans h).cons _).trans (List.perm_append_singleton _ _).symm

/-- Adding a node keeps that every queue entry has the frequency of its node. -/
theorem entry_add (hn : b.nodes.length < 511) (hlt : ∀ e ∈ b.queue, e.idx.toNat < b.nodes.length)
    (h : ∀ e ∈ b.queue, e.freq = (nodeAt (nodeTableOf b.nodes) e.idx.toNat).nfreq) :
    ∀ e ∈ (b.add x).queue, e.freq = (nodeAt (nodeTableOf (b.add x).nodes) e.idx.toNat).nfreq := by
  intro e he
  rw [builder_add_queue, List.mem_cons] at he
  rw [builder_add_nodes]
  rcases he with rfl | he
  · rw [nodeIdx_toNat hn, nodeAt_nodeTableOf_length hn]
  · rw [nodeAt_nodeTableOf_append (hlt e he), h e he]

/-- Adding a node in form keeps the nodes above the leaves in form. -/
theorem internal_add {k : Nat} (h : ∀ m, k ≤ m → m < b.nodes.length → InternalOk (nodeTableOf b.nodes) m)
    (hx : k ≤ b.nodes.length → InternalOk (nodeTableOf (b.nodes ++ [x])) b.nodes.length) :
    ∀ m, k ≤ m → m < (b.add x).nodes.length → InternalOk (nodeTableOf (b.add x).nodes) m := by
  intro m hkm hm
  rw [builder_add_nodes] at hm ⊢
  rw [List.length_append, List.length_singleton] at hm
  rcases Nat.lt_succ_iff_lt_or_eq.mp hm with hm | rfl
  · exact internalOk_append hm _ (h m hkm hm)
  · exact hx hkm

end

/-! Seeding. -/

/-- Adding a leaf (42_build R133). -/
theorem merging_add_leaf {k total : Nat} {b : Builder} (hk : k < 511) (h : b.Merging k total) (hb : b.nodes.length = k)
    (x : Byte) (f : Word) : (b.add (leafNode x f)).Merging (k + 1) (f.toNat + total) where
  cover := cover_add (by omega) (by simpa using h.cover)
  entry := entry_add (by omega) (fun _ => idx_lt_of_cover h.cover) h.entry
  size := by have := h.size; simp; omega
  sum_eq := by
    have hf : (f.setWidth 40).toNat = f.toNat := by simp; omega
    simp [leafNode, h.sum_eq, hf, -BitVec.toNat_setWidth]
  internal := by intro m hkm hm; simp at hm; omega

/-- `seed` adds the leaves of the table's symbols one by one. -/
theorem seed_eq_foldl (t : FreqTable) :
    seed t = (presentSymbols t).foldl (fun b x => b.add (leafNode x (symGet t x))) ⟨[], []⟩ := by
  simp [seed, presentSymbols, List.foldl_filter]

/-- Seeding the rest of the symbols. -/
theorem merging_foldl (t : FreqTable) (l : List Byte) {k total : Nat} {b : Builder} (hk : k + l.length < 511)
    (h : b.Merging k total) (hb : b.nodes.length = k) :
    (l.foldl (fun b x => b.add (leafNode x (symGet t x))) b).Merging (k + l.length)
      ((l.map fun x => (symGet t x).toNat).sum + total) := by
  induction l generalizing k total b with
  | nil => simpa using h
  | cons x l ih =>
    rw [List.length_cons] at hk
    have := ih (by omega) (merging_add_leaf (by omega) h hb x (symGet t x)) (by simp [hb])
    rw [List.foldl_cons, List.length_cons, List.map_cons, List.sum_cons]
    convert this using 1 <;> ring

/-- The sum of the table's counts (42_build R142). -/
def freqTotal (t : FreqTable) : Nat := ((presentSymbols t).map fun x => (symGet t x).toNat).sum

theorem freqTotal_le (t : FreqTable) : freqTotal t ≤ 256 * (2 ^ 32 - 1) := by
  have h : ∀ n ∈ (presentSymbols t).map (fun x => (symGet t x).toNat), n ≤ 2 ^ 32 - 1 := by
    intro n hn
    obtain ⟨x, -, rfl⟩ := List.mem_map.mp hn
    have := (symGet t x).isLt
    omega
  have := List.sum_le_card_nsmul _ _ h
  rw [List.length_map, smul_eq_mul] at this
  exact this.trans (Nat.mul_le_mul_right _ (presentSymbols_length_le t))

theorem seed_merging (t : FreqTable) : (seed t).Merging (presentSymbols t).length (freqTotal t) := by
  have hlen := presentSymbols_length_le t
  have h0 : Builder.Merging 0 0 ⟨[], []⟩ :=
    ⟨.rfl, by simp, rfl, rfl, fun m _ hm => absurd hm (Nat.not_lt_zero m)⟩
  simpa [seed_eq_foldl, freqTotal] using merging_foldl t (presentSymbols t) (by omega) h0 rfl

/-! Merging. -/

/-- One merge (42_build R136): the sum of the two frequencies does not wrap, since it is part of the total. -/
theorem merging_merge {k total : Nat} {b : Builder} (hk : k ≤ 256) (ht : total < 2 ^ 40) (h : b.Merging k total)
    {x y : QEntry} {q1 q2 : List QEntry} (hx : pqPopMin b.queue = some (x, q1)) (hy : pqPopMin q1 = some (y, q2)) :
    (Builder.add ⟨q2, b.nodes⟩ (mergedNode x y)).Merging k total := by
  have hq : b.queue.Perm (x :: y :: q2) := (pqPopMin_perm hx).trans ((pqPopMin_perm hy).cons x)
  have hlen : b.queue.length = q2.length + 2 := by simpa using hq.length_eq
  have hsize := h.size
  have hn : b.nodes.length < 511 := by omega
  have hcover : ((mergedNode x y).children ++ Builder.indices ⟨q2, b.nodes⟩).Perm (List.range b.nodes.length) := by
    have : b.indices.Perm ((x :: y :: q2).map (fun e => e.idx.toNat) ++ b.nodes.flatMap Node.children) :=
      (hq.map _).append_right _
    exact this.symm.trans h.cover
  have hmem : ∀ e ∈ x :: y :: q2, e ∈ b.queue := fun e he => hq.mem_iff.mpr he
  have hlt : ∀ e ∈ x :: y :: q2, e.idx.toNat < b.nodes.length := fun e he => idx_lt_of_cover h.cover (hmem e he)
  have hsum : x.freq.toNat + (y.freq.toNat + Builder.queueSum ⟨q2, b.nodes⟩) = total := by
    have : b.queueSum = ((x :: y :: q2).map fun e => e.freq.toNat).sum := (hq.map _).sum_eq
    simpa [Builder.queueSum] using this.symm.trans h.sum_eq
  have hadd : (x.freq + y.freq).toNat = x.freq.toNat + y.freq.toNat := by
    rw [BitVec.toNat_add, Nat.mod_eq_of_lt (by omega)]
  have hne : x.idx ≠ y.idx := by
    have := hcover.nodup_iff.mpr List.nodup_range
    intro e
    simp [e] at this
  have hfreq : ∀ e ∈ x :: y :: q2,
      (nodeAt (nodeTableOf (b.nodes ++ [mergedNode x y])) e.idx.toNat).nfreq = e.freq := fun e he => by
    rw [nodeAt_nodeTableOf_append (hlt e he), h.entry e (hmem e he)]
  exact {
    cover := cover_add hn hcover
    entry := entry_add hn (fun e he => hlt e (by simp [show e ∈ q2 from he])) fun e he =>
      h.entry e (hmem e (by simp [show e ∈ q2 from he]))
    size := by simp; omega
    sum_eq := by rw [builder_add_queueSum, mergedNode, hadd]; omega
    internal := internal_add h.internal fun _ => by
      unfold InternalOk
      simp only [nodeAt_nodeTableOf_length hn]
      refine ⟨rfl, rfl, rfl, hlt x (by simp), hlt y (by simp), hne, ?_⟩
      rw [mergedNode, hadd]
      exact congrArg₂ (· + ·) (congrArg BitVec.toNat (hfreq x (by simp)).symm)
        (congrArg BitVec.toNat (hfreq y (by simp)).symm) }

/-- The merge loop keeps the invariant. -/
theorem mergeLoop_merging {k total : Nat} (hk : k ≤ 256) (ht : total < 2 ^ 40) (fuel : Nat) {b : Builder}
    (h : b.Merging k total) : (mergeLoop fuel b).Merging k total := by
  induction fuel generalizing b with
  | zero => exact h
  | succ fuel ih =>
    rw [mergeLoop]
    split
    · exact h
    · next x q1 hx =>
      split
      · exact h
      · next y q2 hy => exact ih (merging_merge hk ht h hx hy)

/-- No merge changes a node made before it (42_build R145). -/
theorem mergeLoop_nodes_prefix (fuel : Nat) (b : Builder) : b.nodes <+: (mergeLoop fuel b).nodes := by
  induction fuel generalizing b with
  | zero => exact List.prefix_rfl
  | succ fuel ih =>
    rw [mergeLoop]
    split
    · exact List.prefix_rfl
    · split
      · exact List.prefix_rfl
      · exact List.IsPrefix.trans (by simp) (ih _)

/-! The tree. -/

theorem mergeAll_merging (t : FreqTable) : (mergeAll (seed t)).Merging (presentSymbols t).length (freqTotal t) :=
  mergeLoop_merging (presentSymbols_length_le t) ((freqTotal_le t).trans_lt (by norm_num)) _ (seed_merging t)

/-- All merges done, the queue holds one entry (42_build R137). -/
theorem mergeAll_queue_length {t : FreqTable} (h : presentSymbols t ≠ []) : (mergeAll (seed t)).queue.length = 1 := by
  have hsize := (seed_merging t).size
  rw [seed_nodes, List.length_map] at hsize
  have hpos : 0 < (presentSymbols t).length := List.length_pos_iff.mpr h
  exact mergeLoop_queue_length (List.length_pos_iff.mp (by omega)) (by omega)

/-- Node `j` of the finished tree is the leaf of the `j`-th symbol (42_build R133). -/
theorem nodeAt_mergeAll_leaf (t : FreqTable) {j : Nat} (h : j < (presentSymbols t).length) :
    nodeAt (nodeTableOf (mergeAll (seed t)).nodes) j =
      leafNode (presentSymbols t)[j] (symGet t (presentSymbols t)[j]) := by
  have hlen := presentSymbols_length_le t
  obtain ⟨rest, hrest⟩ := mergeLoop_nodes_prefix (seed t).queue.length (seed t)
  rw [mergeAll, ← hrest, seed_nodes, nodeAt_nodeTableOf_append (by simpa using h), nodeAt_nodeTableOf _ (by omega)]
  simp [h]

theorem presentSymbols_pairwise (t : FreqTable) : (presentSymbols t).Pairwise fun x y => x.toNat < y.toNat := by
  refine List.Pairwise.filter _ (List.pairwise_map.mpr ?_)
  refine List.pairwise_lt_range.imp_of_mem fun ha hb hab => ?_
  rw [List.mem_range] at ha hb
  simpa [Nat.mod_eq_of_lt ha, Nat.mod_eq_of_lt hb] using hab

theorem leafOk_leafNode (x : Byte) {f : Word} (h : f ≠ 0#32) : LeafOk (leafNode x f) := by
  have hpos : f.toNat ≠ 0 := fun e => h (BitVec.eq_of_toNat_eq e)
  have hlt := f.isLt
  refine ⟨rfl, rfl, rfl, rfl, ?_, ?_⟩ <;> simp [leafNode] <;> omega

/-- In a list in which no two nodes share a child, a child has one parent. -/
theorem existsUnique_parent {l : List Node} {n : Nat} (hnd : (l.flatMap Node.children).Nodup)
    (hn : n ∈ l.flatMap Node.children) : ∃! m, m < l.length ∧ n ∈ (l.getD m Node.zero).children := by
  obtain ⟨x, hx, hnx⟩ := List.mem_flatMap.mp hn
  obtain ⟨m, hm, rfl⟩ := List.getElem_of_mem hx
  refine ⟨m, ⟨hm, by simpa [hm] using hnx⟩, fun m' ⟨hm', hnx'⟩ => ?_⟩
  have hdisj := (List.nodup_flatMap.mp hnd).2
  have hnx' : n ∈ l[m'].children := by simpa [hm'] using hnx'
  rcases lt_trichotomy m' m with hlt | heq | hlt
  · exact (List.pairwise_iff_getElem.mp hdisj m' m hm' hm hlt hnx' hnx).elim
  · exact heq
  · exact (List.pairwise_iff_getElem.mp hdisj m m' hm hm' hlt hnx hnx').elim

/-- A builder whose queue is down to one entry holds a tree of 10_state R40 item 4, once its first `k` nodes are leaves in
ascending order of their symbols. -/
theorem treeShape_of_merging {k total : Nat} {b : Builder} {r : QEntry} (hk : 1 ≤ k ∧ k ≤ 256) (h : b.Merging k total)
    (hq : b.queue = [r]) (leaves : ∀ n, n < k → LeafOk (nodeAt (nodeTableOf b.nodes) n))
    (ascending : ∀ m n, m < n → n < k →
      (nodeAt (nodeTableOf b.nodes) m).sym.toNat < (nodeAt (nodeTableOf b.nodes) n).sym.toNat) :
    TreeShape (treeOf k b) (nodeTableOf b.nodes) k := by
  have hlen : b.nodes.length = 2 * k - 1 := by have := h.size; rw [hq, List.length_singleton] at this; omega
  have internal : ∀ m, k ≤ m → m < 2 * k - 1 → InternalOk (nodeTableOf b.nodes) m := hlen ▸ h.internal
  have hparent : ∀ n m, m < 2 * k - 1 →
      (n ∈ (b.nodes.getD m Node.zero).children ↔ k ≤ m ∧ IsChild (nodeTableOf b.nodes) n m) := by
    intro n m hm
    rw [← nodeAt_nodeTableOf _ (by omega)]
    by_cases hkm : k ≤ m
    · obtain ⟨-, hl, -⟩ := internal m hkm hm
      simp [mem_children_iff hl, hkm]
    · obtain ⟨-, hl, -⟩ := leaves m (by omega)
      simp [Node.children, hl, hkm]
  have root_no_child : ∀ m, k ≤ m → m < 2 * k - 1 → ¬ IsChild (nodeTableOf b.nodes) (2 * k - 2) m := by
    intro m hkm hm hc
    obtain ⟨-, -, -, hlt, hrt, -⟩ := internal m hkm hm
    rcases hc with hc | hc <;> omega
  have hcover : (r.idx.toNat :: b.nodes.flatMap Node.children).Perm (List.range (2 * k - 1)) := by
    simpa [Builder.indices, hq, hlen] using h.cover
  have hchild : ∀ n, n < 2 * k - 1 → n ≠ r.idx.toNat →
      ∃! m, (k ≤ m ∧ m < 2 * k - 1) ∧ IsChild (nodeTableOf b.nodes) n m := by
    intro n hn hne
    have hnd := (List.nodup_cons.mp (hcover.nodup_iff.mpr List.nodup_range)).2
    have hmem : n ∈ b.nodes.flatMap Node.children :=
      (List.mem_cons.mp (hcover.mem_iff.mpr (List.mem_range.mpr hn))).resolve_left hne
    obtain ⟨m, ⟨hm, hnm⟩, huniq⟩ := existsUnique_parent hnd hmem
    rw [hlen] at hm
    obtain ⟨hkm, hc⟩ := (hparent n m hm).mp hnm
    exact ⟨m, ⟨⟨hkm, hm⟩, hc⟩, fun m' ⟨⟨hkm', hm'⟩, hc'⟩ =>
      huniq m' ⟨hlen ▸ hm', (hparent n m' hm').mpr ⟨hkm', hc'⟩⟩⟩
  have hroot : r.idx.toNat = 2 * k - 2 := by
    by_contra hne
    obtain ⟨m, ⟨⟨hkm, hm⟩, hc⟩, -⟩ := hchild (2 * k - 2) (by omega) (Ne.symm hne)
    exact root_no_child m hkm hm hc
  exact {
    leaf_count := hk
    tree_reg := by
      simp only [treeOf, hq, pqPopMin, hlen, true_and]
      refine ⟨?_, ?_, hroot⟩ <;> rw [BitVec.toNat_ofNat, Nat.mod_eq_of_lt (by omega)]
    leaves
    ascending
    internal
    one_parent := fun n hn => hchild n (by omega) (by omega)
    root_no_child
    rest_zero := fun n hn hn' => by
      rw [nodeAt_nodeTableOf _ hn']
      exact List.getD_eq_default _ _ (hlen ▸ hn) }

/-- 42_build R141: the node memory and `TREE` that BUILD leaves are a tree of 10_state R40 item 4. -/
theorem build_treeShape {t : FreqTable} (h : presentSymbols t ≠ []) :
    TreeShape (treeOf (presentSymbols t).length (mergeAll (seed t))) (nodeTableOf (mergeAll (seed t)).nodes)
      (presentSymbols t).length := by
  obtain ⟨r, hr⟩ := List.length_eq_one_iff.mp (mergeAll_queue_length h)
  refine treeShape_of_merging ⟨List.length_pos_iff.mpr h, presentSymbols_length_le t⟩ (mergeAll_merging t) hr
    (fun n hn => ?_) fun m n hmn hn => ?_
  · rw [nodeAt_mergeAll_leaf t hn]
    exact leafOk_leafNode _ (by simpa using (List.mem_filter.mp (List.getElem_mem hn)).2)
  · rw [nodeAt_mergeAll_leaf t hn, nodeAt_mergeAll_leaf t (hmn.trans hn)]
    exact List.pairwise_iff_getElem.mp (presentSymbols_pairwise t) m n (hmn.trans hn) hn hmn

end Sys2Proof.Machine
end

section
/-! PROOF. Every table that CODES writes is in form, and no code of it begins another (10_state R40 item 5, 43_codes R167),
whatever the node memory holds: each entry is a path from the root to a leaf with the entry's symbol, and no path to a leaf goes on. -/

namespace Sys2Proof.Machine

theorem follow_cons {t : NodeTable} {n : Nat} (h : (nodeAt t n).leaf = false) (b : Bool) (bs : Bits) :
    follow t n (b :: bs) = follow t (if b then (nodeAt t n).right.toNat else (nodeAt t n).left.toNat) bs := by
  simp [follow, h]

/-- A path ends at a leaf: nothing follows it. -/
theorem follow_leaf {t : NodeTable} {n m : Nat} {bs : Bits} (hl : (nodeAt t n).leaf = true) (h : follow t n bs = some m) :
    bs = [] := by
  cases bs with
  | nil => rfl
  | cons b bs => simp [follow, hl] at h

theorem follow_append (t : NodeTable) (n : Nat) (p q : Bits) :
    follow t n (p ++ q) = (follow t n p).bind fun m => follow t m q := by
  induction p generalizing n with
  | nil => rfl
  | cons b p ih =>
    rw [List.cons_append, follow, follow]
    split
    · rfl
    · exact ih _

/-- The bit-string `p` leads from node `n` to a leaf of symbol `x`. -/
def LeafPath (t : NodeTable) (n : Nat) (p : Bits) (x : Byte) : Prop :=
  ∃ m, follow t n p = some m ∧ (nodeAt t m).leaf = true ∧ (nodeAt t m).sym = x

/-- A path to a leaf that begins with a path to a leaf is that path, so both are one symbol's (43_codes R167). -/
theorem leafPath_prefix {t : NodeTable} {n : Nat} {p q : Bits} {x y : Byte} (hp : LeafPath t n p x)
    (hq : LeafPath t n q y) (h : p <+: q) : x = y := by
  obtain ⟨m, hm, hl, rfl⟩ := hp
  obtain ⟨m', hm', -, rfl⟩ := hq
  obtain ⟨r, rfl⟩ := h
  rw [follow_append, hm, Option.bind_some] at hm'
  obtain rfl := follow_leaf hl hm'
  cases hm'
  rfl

/-- What the walk writes (43_codes R162): an entry it changes gets the accumulated code and the path to a leaf of its
symbol, shorter than the fuel. -/
theorem walk_entry {t : NodeTable} {fuel : Nat} {n : NodeIdx} {c : Bits} {ct ct' : CodeTable}
    (h : walk t fuel n c ct = some ct') (x : Byte) :
    symGet ct' x = symGet ct x ∨
      ∃ p, p.length < fuel ∧ LeafPath t n.toNat p x ∧ symGet ct' x = codeEntryOf (c ++ p) := by
  induction fuel generalizing n c ct ct' with
  | zero => cases h
  | succ fuel ih =>
    have hn : n.toNat < 511 := by
      by_contra hn
      simp [walk, nodeGet_eq_none t n hn] at h
    cases hl : (nodeAt t n.toNat).leaf with
    | true =>
      rw [walk_leaf hn hl] at h
      cases h
      rw [setCode, symGet_symSet]
      split_ifs with hx
      · exact .inr ⟨[], by simp, ⟨n.toNat, rfl, hl, hx.symm⟩, by simp⟩
      · exact .inl rfl
    | false =>
      rw [walk_fork hn hl] at h
      obtain ⟨ct₁, h₁, h₂⟩ := Option.bind_eq_some_iff.mp h
      rcases ih h₂ with hkeep | ⟨p, hp, ⟨m, hm, hleaf⟩, he⟩
      · rcases ih h₁ with hkeep₁ | ⟨p, hp, ⟨m, hm, hleaf⟩, he⟩
        · exact .inl (hkeep.trans hkeep₁)
        · refine .inr ⟨false :: p, by simpa using hp, ⟨m, ?_, hleaf⟩, by simpa using hkeep.trans he⟩
          simpa [follow_cons hl] using hm
      · refine .inr ⟨true :: p, by simpa using hp, ⟨m, ?_, hleaf⟩, by simpa using he⟩
        simpa [follow_cons hl] using hm

/-- A table whose entries are paths of 1 to 255 bits to leaves of their symbols is in form, and no code begins another. -/
theorem codeOk_of_leafPaths {t : NodeTable} {n : Nat} {ct : CodeTable}
    (h : ∀ x, symGet ct x = CodeEntry.zero ∨
      ∃ p, 1 ≤ p.length ∧ p.length ≤ 255 ∧ LeafPath t n p x ∧ symGet ct x = codeEntryOf p) : CodeOk ct := by
  refine ⟨fun x => ?_, fun x y hxy hx hy hpre => ?_⟩
  · rcases h x with he | ⟨p, h1, h255, -, he⟩
    · exact he ▸ codeEntryOk_zero
    · exact he ▸ codeEntryOk_codeEntryOf h1 h255
  · rcases h x with he | ⟨p, -, hp, hpath, he⟩
    · rw [he] at hx; cases hx
    · rcases h y with he' | ⟨q, -, hq, hpath', he'⟩
      · rw [he'] at hy; cases hy
      · rw [he, he', codeBits_codeEntryOf hp, codeBits_codeEntryOf hq] at hpre
        exact hxy (leafPath_prefix hpath hpath' hpre)

/-- A root that is a leaf has the one code "0" (43_codes R163), which no path gives. -/
theorem codeOk_single (x : Byte) : CodeOk (setCode CodeTable.empty x [false]) := by
  refine ⟨fun y => ?_, fun y z hyz hy hz => ?_⟩
  · rw [setCode, symGet_symSet]
    split_ifs
    · exact codeEntryOk_codeEntryOf (by decide) (by decide)
    · rw [symGet_code_empty]; exact codeEntryOk_zero
  · have honly : ∀ y, (symGet (setCode CodeTable.empty x [false]) y).valid = true → y = x := by
      intro y hy
      by_contra hne
      rw [setCode, symGet_symSet_ne _ _ hne, symGet_code_empty] at hy
      cases hy
    exact absurd ((honly y hy).trans (honly z hz).symm) hyz

/-- 10_state R40 item 5 holds of the table CODES makes, whatever the node memory holds. -/
theorem codeOk_codesOf {t : NodeTable} {r : NodeIdx} {ct : CodeTable} (h : codesOf t r = some ct) : CodeOk ct := by
  unfold codesOf at h
  split at h
  · cases h
  · next x hx =>
    split at h
    · cases h; exact codeOk_single x.sym
    · next hl =>
      have hr : nodeAt t r.toNat = x := by
        simp only [nodeGet] at hx
        simp [nodeAt, hx]
      refine codeOk_of_leafPaths (t := t) (n := r.toNat) fun y => ?_
      rcases walk_entry h y with hkeep | ⟨p, hp, hpath, he⟩
      · exact .inl (hkeep.trans (symGet_code_empty y))
      · refine .inr ⟨p, List.length_pos_iff.mpr ?_, by omega, hpath, he⟩
        rintro rfl
        obtain ⟨m, hm, hleaf, -⟩ := hpath
        cases hm
        exact hl (hr ▸ hleaf)

/-- 10_state R40 item 5 holds after CODES. -/
theorem exec_codes_codeOk {s t : State} (h : exec .codes s = .next t) : CodeOk t.code := by
  rcases exec_codes_cases h with ⟨-, rfl⟩ | ⟨-, ct, hct, rfl⟩
  · exact codeOk_empty
  · exact codeOk_codesOf hct

end Sys2Proof.Machine
end

section
/-! PROOF. The invariants of 10_state R40 hold after reset and every step keeps them: first what each change of a part they
speak of asks for, then the commands, then the step. -/

namespace Sys2Proof.Machine

/-! What keeps the invariants. -/

section
variable {s : State}

/-- The fields that R40 says nothing about may take any value. -/
theorem State.Inv.frame (h : s.Inv) {st : Status} {e : Word} {f : FreqTable} {p : List HostInput} {r : List Response}
    {d : Nat} :
    ({ s with status := st, errInfo := e, freq := f, pending := p, responses := r, drawn := d } : State).Inv :=
  ⟨h.caps_ok, h.lengths, h.tree_ok, h.code_ok, h.src_ok, h.art_ok, h.dst_ok⟩

theorem State.Inv.set_src (h : s.Inv) {m : Memory} (hm : BufferOk m s.caps.srcCap) : ({ s with src := m } : State).Inv :=
  ⟨h.caps_ok, h.lengths, h.tree_ok, h.code_ok, hm, h.art_ok, h.dst_ok⟩

theorem State.Inv.set_art (h : s.Inv) {m : Memory} (hm : BufferOk m s.caps.artCap) : ({ s with art := m } : State).Inv :=
  ⟨h.caps_ok, h.lengths, h.tree_ok, h.code_ok, h.src_ok, hm, h.dst_ok⟩

theorem State.Inv.set_dst (h : s.Inv) {m : Memory} (hm : BufferOk m s.caps.dstCap) : ({ s with dst := m } : State).Inv :=
  ⟨h.caps_ok, h.lengths, h.tree_ok, h.code_ok, h.src_ok, h.art_ok, hm⟩

theorem State.Inv.set_srcLen (h : s.Inv) {n : Word} (hn : n.toNat ≤ s.caps.srcCap) :
    ({ s with srcLen := n } : State).Inv :=
  have ⟨_, hart, hdst⟩ := h.lengths
  ⟨h.caps_ok, ⟨hn, hart, hdst⟩, h.tree_ok, h.code_ok, h.src_ok, h.art_ok, h.dst_ok⟩

theorem State.Inv.set_artLen (h : s.Inv) {n : Word} (hn : n.toNat ≤ s.caps.artCap) :
    ({ s with artLen := n } : State).Inv :=
  have ⟨hsrc, _, hdst⟩ := h.lengths
  ⟨h.caps_ok, ⟨hsrc, hn, hdst⟩, h.tree_ok, h.code_ok, h.src_ok, h.art_ok, h.dst_ok⟩

theorem State.Inv.set_dstLen (h : s.Inv) {n : Word} (hn : n.toNat ≤ s.caps.dstCap) :
    ({ s with dstLen := n } : State).Inv :=
  have ⟨hsrc, hart, _⟩ := h.lengths
  ⟨h.caps_ok, ⟨hsrc, hart, hn⟩, h.tree_ok, h.code_ok, h.src_ok, h.art_ok, h.dst_ok⟩

theorem State.Inv.set_code (h : s.Inv) {ct : CodeTable} (hct : CodeOk ct) : ({ s with code := ct } : State).Inv :=
  ⟨h.caps_ok, h.lengths, h.tree_ok, hct, h.src_ok, h.art_ok, h.dst_ok⟩

theorem State.Inv.set_noTree (h : s.Inv) : ({ s with node := NodeTable.empty, tree := Tree.none } : State).Inv :=
  ⟨h.caps_ok, h.lengths, ⟨fun _ => ⟨rfl, rfl⟩, fun hv => by cases hv⟩, h.code_ok, h.src_ok, h.art_ok, h.dst_ok⟩

theorem State.Inv.set_tree (h : s.Inv) {t : Tree} {nodes : NodeTable} {k : Nat} (ht : TreeShape t nodes k) :
    ({ s with node := nodes, tree := t } : State).Inv := by
  obtain ⟨hv, hk, -, -⟩ := ht.tree_reg
  exact ⟨h.caps_ok, h.lengths, ⟨fun hv' => absurd (hv.symm.trans hv') (by decide), fun _ => hk.symm ▸ ht⟩, h.code_ok,
    h.src_ok, h.art_ok, h.dst_ok⟩

/-- A stored length is at most the number stored (entry 14). -/
theorem ofNat_toNat_le {n cap : Nat} (h : n ≤ cap) : (BitVec.ofNat 32 n).toNat ≤ cap :=
  (BitVec.toNat_ofNat n 32).trans_le ((Nat.mod_le _ _).trans h)

theorem State.Inv.clearTables (h : s.Inv) : (clearTables s).Inv :=
  ((((h.set_noTree.set_code codeOk_empty).set_srcLen (n := 0) (Nat.zero_le _)).set_artLen (n := 0)
    (Nat.zero_le _)).set_dstLen (n := 0) (Nat.zero_le _)).frame

theorem State.Inv.packFailed (h : s.Inv) : (packFailed s).Inv :=
  ((h.set_art (bufferOk_scramble h.art_ok s.drawn)).set_artLen (n := 0) (Nat.zero_le _)).frame

theorem State.Inv.unpackFailed (h : s.Inv) : (unpackFailed s).Inv :=
  ((h.set_dst (bufferOk_scramble h.dst_ok s.drawn)).set_dstLen (n := 0) (Nat.zero_le _)).frame

end

/-! The commands. -/

theorem packStream_inv (xs : List Byte) {s : State} (h : s.Inv) : (packStream xs s).Inv := by
  rcases packStream_cases xs s with ⟨i, -, he⟩ | ⟨-, -, he⟩ | ⟨-, hfit, he⟩ <;> rw [he]
  · exact h.packFailed.frame
  · exact h.packFailed.frame
  · exact ((h.set_art (bufferOk_writeAll h.art_ok ((Nat.zero_add _).trans_le hfit))).set_artLen (ofNat_toNat_le hfit)).frame

theorem unpackStream_inv (xs : List Byte) {s : State} (h : s.Inv) : (unpackStream xs s).Inv := by
  rcases unpackStream_cases xs s with ⟨x, info, -, -, he⟩ | ⟨header, payload, -, -, -, -, hfit, he⟩ <;> rw [he]
  · exact h.unpackFailed.frame
  · exact ((h.set_dst (bufferOk_writeAll h.dst_ok ((Nat.zero_add _).trans_le hfit))).set_dstLen (ofNat_toNat_le hfit)).frame

theorem exec_inv {i : Instr} {s t : State} (h : s.Inv) (hx : exec i s = .next t) : t.Inv := by
  cases i with
  | nop => cases hx; exact h.frame
  | clear => cases hx; exact h.clearTables.frame
  | count => cases hx; exact h.frame
  | build =>
    rw [exec_build_eq] at hx
    split_ifs at hx with hp <;> cases hx
    · exact h.set_noTree.frame
    · exact (h.set_tree (build_treeShape hp)).frame
  | codes =>
    have hct := exec_codes_codeOk hx
    obtain ⟨-, rfl⟩ | ⟨-, ct, -, rfl⟩ := exec_codes_cases hx <;> exact (h.set_code hct).frame
  | pack => cases hx; exact packStream_inv _ h.frame
  | unpack => cases hx; exact unpackStream_inv _ h.frame
  | eclr => cases hx; exact h.frame

/-! Reset and the step. -/

theorem resetWith_inv {c : Caps} (h : c.wellFormed = true) : (State.resetWith c).Inv where
  caps_ok := h
  lengths := ⟨Nat.zero_le _, Nat.zero_le _, Nat.zero_le _⟩
  tree_ok := ⟨fun _ => ⟨rfl, rfl⟩, fun hv => by cases hv⟩
  code_ok := codeOk_empty
  src_ok := bufferOk_nil _
  art_ok := bufferOk_nil _
  dst_ok := bufferOk_nil _

/-- A host write stores only lengths up to the capacity and only bytes at entries that exist (20_memory R65). -/
theorem writeTarget_inv {g : Target} {a : Nat} {w : Word} {s s' : State} (h : s.Inv)
    (hg : decodeAddr s.caps a = some g) (hw : writeTarget g w s = some s') : s'.Inv := by
  rcases writeTarget_cases hw with ⟨-, hn, rfl⟩ | ⟨-, hn, rfl⟩ | ⟨x, -, rfl⟩ | ⟨i, rfl, rfl⟩ | ⟨i, rfl, rfl⟩
  · exact h.set_srcLen hn
  · exact h.set_artLen hn
  · exact h.frame
  · exact h.set_src (bufferOk_write h.src_ok (decodeAddr_sound hg) _)
  · exact h.set_art (bufferOk_write h.art_ok (decodeAddr_sound hg) _)

/-- Settles O48. -/
theorem resetMeetsInvariants : Obligations.ResetMeetsInvariants := fun _ => resetWith_inv

/-- Settles O47: by what the step did. A read and a refused write touch nothing R40 speaks of; a stored write stays in
range; BUILD makes a tree (`build_treeShape`), CODES a table of R40 item 5 (`exec_codes_codeOk`), PACK and UNPACK write within
the capacity. -/
theorem stepKeepsInvariants : Obligations.StepKeepsInvariants := by
  intro s t h hs
  rcases step_cases hs with ⟨-, rfl⟩ | ⟨x, rest, -, hx⟩
  · exact h
  have hrest : ({ s with pending := rest } : State).Inv := h.frame
  rcases hx with ⟨-, rfl⟩ | ⟨a, -, rfl⟩ | ⟨a, w, -, hw⟩
  · exact (resetWith_inv h.caps_ok).frame
  · obtain ⟨r, v, d, he⟩ := hostRead_eq a { s with pending := rest }
    exact he ▸ hrest.frame
  · rcases hw with rfl | ⟨g, s', hg, -, hw, rfl⟩ | ⟨i, s', -, -, hi, rfl⟩ | ⟨-, rfl⟩
    · exact hrest.frame
    · exact (writeTarget_inv hrest hg hw).frame
    · exact (exec_inv hrest hi).frame
    · exact hrest.frame

end Sys2Proof.Machine
end

section
/-! PROOF. The rows of 10_state R42: what each command writes and what it reads. How PACK and UNPACK end depends on the
entries they read, the code table and the capacities alone; nothing else of the state enters. -/

namespace Sys2Proof.Machine

/-! What a command writes. -/

/-- Whatever it reads, PACK writes ART, ART_LEN, STATUS and ERR_INFO alone (and may draw free values, entry 6). -/
theorem exec_pack_frame {s t : State} (h : exec .pack s = .next t) : ∃ a n st e d,
    t = { s with art := a, artLen := n, status := st, errInfo := e, drawn := d } := by
  rw [exec_pack_eq s _ _ rfl] at h
  cases h
  rcases packStream_cases (s.src.drawAll 0 s.srcLen.toNat s.drawn).1
      { s with drawn := (s.src.drawAll 0 s.srcLen.toNat s.drawn).2 } with ⟨i, -, he⟩ | ⟨-, -, he⟩ | ⟨-, -, he⟩ <;>
    exact ⟨_, _, _, _, _, he⟩

/-- Whatever it reads, UNPACK writes DST, DST_LEN, STATUS and ERR_INFO alone. -/
theorem exec_unpack_frame {s t : State} (h : exec .unpack s = .next t) : ∃ a n st e d,
    t = { s with dst := a, dstLen := n, status := st, errInfo := e, drawn := d } := by
  rw [exec_unpack_eq s _ _ rfl] at h
  cases h
  rcases unpackStream_cases (s.art.drawAll 0 s.artLen.toNat s.drawn).1
      { s with drawn := (s.art.drawAll 0 s.artLen.toNat s.drawn).2 } with
    ⟨x, info, -, -, he⟩ | ⟨header, payload, -, -, -, -, -, he⟩ <;>
    exact ⟨_, _, _, _, _, he⟩

/-- Settles O50: each command's next state is written as the state before it with the fields of its row replaced. -/
theorem commandsWriteOnlyTheirRow : Obligations.CommandsWriteOnlyTheirRow := by
  intro i s t h
  cases i with
  | nop => cases h; simp
  | clear => cases h; simp
  | count => cases h; simp
  | build =>
    rw [exec_build_eq] at h
    split_ifs at h <;> cases h <;> simp
  | codes => obtain ⟨-, rfl⟩ | ⟨-, ct, -, rfl⟩ := exec_codes_cases h <;> simp
  | pack => obtain ⟨a, n, st, e, d, rfl⟩ := exec_pack_frame h; simp
  | unpack => obtain ⟨a, n, st, e, d, rfl⟩ := exec_unpack_frame h; simp
  | eclr => cases h; simp

/-! What a command reads. -/

/-- Two buffers with equal reads over a run of entries give equal bytes, and draw equally often. -/
theorem memory_drawAll_congr {m m' : Memory} {i n : Nat} (h : ∀ j, i ≤ j → j < i + n → m.read j = m'.read j) (d : Nat) :
    m.drawAll i n d = m'.drawAll i n d := by
  induction n generalizing i d with
  | zero => rfl
  | succ n ih =>
    have hd : m.draw i d = m'.draw i d := by rw [Memory.draw, Memory.draw, h i le_rfl (by omega)]
    rw [Memory.drawAll, Memory.drawAll, hd, ih fun j hj hj' => h j (by omega) (by omega)]

/-- How PACK ends is one of two things for every state with the code table `ct` and the capacities `c` (44_pack R175). -/
theorem packStream_end (xs : List Byte) (ct : CodeTable) (c : Caps) :
    (∃ x info, x ≠ .ok ∧ ∀ s : State, s.code = ct → s.caps = c →
      packStream xs s = raise (opcodeOf .pack) x info (packFailed s)) ∨
    ∃ out, ∀ s : State, s.code = ct → s.caps = c →
      packStream xs s = finish (opcodeOf .pack) .ok 0
        { s with art := s.art.writeAll 0 out, artLen := BitVec.ofNat 32 out.length } := by
  cases hm : firstMiss ct xs with
  | some i => exact .inl ⟨.lookupMiss, BitVec.ofNat 32 i, by decide, fun s hct _ => by simp [packStream, hct, hm]⟩
  | none =>
    by_cases hfit : c.artCap < (artifactOf (concatCodes ct xs)).length
    · exact .inl ⟨.overflow, 0, by decide, fun s hct hc => by simp only [packStream, hct, hc, hm, if_pos hfit]⟩
    · exact .inr ⟨artifactOf (concatCodes ct xs), fun s hct hc => by simp only [packStream, hct, hc, hm, if_neg hfit]⟩

/-- How UNPACK ends is one of two things for every state with the code table `ct` and the capacities `c`
(45_unpack R195). -/
theorem unpackStream_end (xs : List Byte) (ct : CodeTable) (c : Caps) :
    (∃ x info, x ≠ .ok ∧ ∀ s : State, s.code = ct → s.caps = c → unpackStream xs s = unpackFail x info s) ∨
    ∃ out, ∀ s : State, s.code = ct → s.caps = c →
      unpackStream xs s = finish (opcodeOf .unpack) .ok 0
        { s with dst := s.dst.writeAll 0 out, dstLen := BitVec.ofNat 32 out.length } := by
  cases xs with
  | nil => exact .inl ⟨.malformedStream, 1, by decide, fun s _ _ => rfl⟩
  | cons header payload =>
    by_cases hhigh : 7 < header.toNat
    · exact .inl ⟨.malformedStream, 2, by decide, fun s _ _ => by simp only [unpackStream, if_pos hhigh]⟩
    by_cases hlong : 8 * payload.length < header.toNat
    · exact .inl ⟨.malformedStream, 3, by decide, fun s _ _ => by
        simp only [unpackStream, if_neg hhigh, if_pos hlong]⟩
    have hpayload : ∀ s, unpackStream (header :: payload) s = unpackPayload header.toNat payload s := fun s => by
      simp only [unpackStream, if_neg hhigh, if_neg hlong]
    simp only [hpayload, unpackPayload]
    generalize hr : decodeWalk ct [] (payloadBits payload header.toNat) = r
    by_cases hleft : r.2 = []
    · by_cases hfit : c.dstCap < r.1.length
      · exact .inl ⟨.overflow, 1, by decide, fun s hct hc => by simp [hct, hc, hr, hleft, hfit]⟩
      · exact .inr ⟨r.1, fun s hct hc => by simp [hct, hc, hr, hleft, hfit]⟩
    · exact .inl ⟨.malformedStream, 0, by decide, fun s hct _ => by simp [hct, hr, hleft]⟩

/-- Below the stored length of a run written from entry 0, a buffer's reads are the run's bytes. -/
theorem read_writeAll_eq (m m' : Memory) (out : List Byte) {i : Nat} (hi : i < (BitVec.ofNat 32 out.length).toNat) :
    (m.writeAll 0 out).read i = (m'.writeAll 0 out).read i := by
  have hlen : i < out.length := hi.trans_le (ofNat_toNat_le le_rfl)
  rw [holds_writeAll m out i hlen, holds_writeAll m' out i hlen]

section
variable {s s' t t' : State}

theorem exec_count_reads (hd : s.drawn = s'.drawn) (hn : s.srcLen = s'.srcLen)
    (hsrc : ∀ i, i < s.srcLen.toNat → s.src.read i = s'.src.read i)
    (ht : exec .count s = .next t) (ht' : exec .count s' = .next t') : t.freq = t'.freq := by
  have hdraw := memory_drawAll_congr (i := 0) (n := s.srcLen.toNat) (fun j _ hj => hsrc j (by omega)) s.drawn
  rw [exec_count_eq s _ _ rfl] at ht
  rw [exec_count_eq s' _ _ rfl, ← hn, ← hd, ← hdraw] at ht'
  cases ht
  cases ht'
  rfl

theorem exec_build_reads (hf : s.freq = s'.freq) (ht : exec .build s = .next t) (ht' : exec .build s' = .next t') :
    t.node = t'.node ∧ t.tree = t'.tree ∧ t.status.result = t'.status.result ∧ t.errInfo = t'.errInfo := by
  rw [exec_build_eq] at ht ht'
  rw [← hf] at ht'
  split_ifs at ht ht' <;> cases ht <;> cases ht' <;> exact ⟨rfl, rfl, rfl, rfl⟩

theorem exec_codes_reads (htree : s.tree = s'.tree) (hnode : s.node = s'.node) (ht : exec .codes s = .next t)
    (ht' : exec .codes s' = .next t') : t.code = t'.code := by
  rcases exec_codes_cases ht with ⟨hv, rfl⟩ | ⟨hv, ct, hct, rfl⟩ <;>
    rcases exec_codes_cases ht' with ⟨hv', rfl⟩ | ⟨hv', ct', hct', rfl⟩
  · rfl
  · simp [htree, hv'] at hv
  · simp [htree, hv'] at hv
  · rw [htree, hnode, hct'] at hct
    exact (Option.some.inj hct).symm

theorem packStream_reads (xs : List Byte) (hc : s.caps = s'.caps) (hcode : s.code = s'.code) :
    (packStream xs s).status.result = (packStream xs s').status.result ∧
      (packStream xs s).errInfo = (packStream xs s').errInfo ∧ (packStream xs s).artLen = (packStream xs s').artLen ∧
      ((packStream xs s).status.result = .ok → ∀ i, i < (packStream xs s).artLen.toNat →
        (packStream xs s).art.read i = (packStream xs s').art.read i) := by
  rcases packStream_end xs s.code s.caps with ⟨x, info, hx, he⟩ | ⟨out, he⟩ <;>
    rw [he s rfl rfl, he s' hcode.symm hc.symm]
  · exact ⟨rfl, rfl, rfl, fun hok => absurd hok hx⟩
  · exact ⟨rfl, rfl, rfl, fun _ i hi => read_writeAll_eq _ _ out hi⟩

theorem exec_pack_reads (hc : s.caps = s'.caps) (hd : s.drawn = s'.drawn) (hn : s.srcLen = s'.srcLen)
    (hsrc : ∀ i, i < s.srcLen.toNat → s.src.read i = s'.src.read i) (hcode : s.code = s'.code)
    (ht : exec .pack s = .next t) (ht' : exec .pack s' = .next t') :
    t.status.result = t'.status.result ∧ t.errInfo = t'.errInfo ∧ t.artLen = t'.artLen ∧
      (t.status.result = .ok → ∀ i, i < t.artLen.toNat → t.art.read i = t'.art.read i) := by
  have hdraw := memory_drawAll_congr (i := 0) (n := s.srcLen.toNat) (fun j _ hj => hsrc j (by omega)) s.drawn
  rw [exec_pack_eq s _ _ rfl] at ht
  rw [exec_pack_eq s' _ _ rfl, ← hn, ← hd, ← hdraw] at ht'
  cases ht
  cases ht'
  exact packStream_reads _ hc hcode

theorem unpackStream_reads (xs : List Byte) (hc : s.caps = s'.caps) (hcode : s.code = s'.code) :
    (unpackStream xs s).status.result = (unpackStream xs s').status.result ∧
      (unpackStream xs s).errInfo = (unpackStream xs s').errInfo ∧ (unpackStream xs s).dstLen = (unpackStream xs s').dstLen ∧
      ((unpackStream xs s).status.result = .ok → ∀ i, i < (unpackStream xs s).dstLen.toNat →
        (unpackStream xs s).dst.read i = (unpackStream xs s').dst.read i) := by
  rcases unpackStream_end xs s.code s.caps with ⟨x, info, hx, he⟩ | ⟨out, he⟩ <;>
    rw [he s rfl rfl, he s' hcode.symm hc.symm]
  · exact ⟨rfl, rfl, rfl, fun hok => absurd hok hx⟩
  · exact ⟨rfl, rfl, rfl, fun _ i hi => read_writeAll_eq _ _ out hi⟩

theorem exec_unpack_reads (hc : s.caps = s'.caps) (hd : s.drawn = s'.drawn) (hn : s.artLen = s'.artLen)
    (hart : ∀ i, i < s.artLen.toNat → s.art.read i = s'.art.read i) (hcode : s.code = s'.code)
    (ht : exec .unpack s = .next t) (ht' : exec .unpack s' = .next t') :
    t.status.result = t'.status.result ∧ t.errInfo = t'.errInfo ∧ t.dstLen = t'.dstLen ∧
      (t.status.result = .ok → ∀ i, i < t.dstLen.toNat → t.dst.read i = t'.dst.read i) := by
  have hdraw := memory_drawAll_congr (i := 0) (n := s.artLen.toNat) (fun j _ hj => hart j (by omega)) s.drawn
  rw [exec_unpack_eq s _ _ rfl] at ht
  rw [exec_unpack_eq s' _ _ rfl, ← hn, ← hd, ← hdraw] at ht'
  cases ht
  cases ht'
  exact unpackStream_reads _ hc hcode

end

/-- Settles O51: one lemma for each command. -/
theorem commandsReadOnlyTheirRow : Obligations.CommandsReadOnlyTheirRow := fun _ _ _ _ hc hd =>
  ⟨exec_count_reads hd, exec_build_reads, exec_codes_reads, exec_pack_reads hc hd, exec_unpack_reads hc hd⟩

end Sys2Proof.Machine
end

section
/-! PROOF. The state as the host sees it: the step on a CMD write, the values after reset, what a read of a register or of a
table window gives, and the bits of the words read. -/

namespace Sys2Proof.Machine

/-! The step on a CMD write. -/

/-- Settles O4: address 0 is CMD, so the write runs `exec` of the decoded command and is answered. -/
theorem stepRunsDecodedCommand : Obligations.StepRunsDecodedCommand := by
  intro s w i rest hp hd
  have hrun : step s = answerCommand (exec i { s with pending := rest }) := by
    have ha : aligned 0x00000000#32 = true := aligned_cmdAddr
    have hc : decodeAddr s.caps (0x00000000#32).toNat = some (.reg .cmd) := decodeAddr_cmdAddr s.caps
    simp only [step, hp, answer, hostWrite, ha, hc, runCommand, hd, if_true]
  rw [hrun]
  cases exec i { s with pending := rest } <;> rfl

/-! Reset. -/

theorem statusWord_reset : (Status.mk .ok false 0).word = 0#32 := by decide

theorem treeWord_none : Tree.none.word = 0#32 := by decide

/-- Settles O8. -/
theorem resetValues : Obligations.ResetValues :=
  ⟨rfl, fun _ => ⟨rfl, statusWord_reset, rfl, rfl, rfl, rfl, treeWord_none, symGet_freq_empty, nodeAt_empty,
    symGet_code_empty, memory_read_nil, memory_read_nil, memory_read_nil⟩⟩

/-! Reads of registers and tables. -/

/-- A read of an aligned mapped address is answered OKAY with the word of what the address names (20_memory R65). -/
theorem step_read {s : State} {rest : List HostInput} {a : Nat} {g : Target}
    (hp : s.pending = .read (BitVec.ofNat 32 a) :: rest) (ha : a < 2 ^ 32) (h4 : a % 4 = 0)
    (hg : decodeAddr s.caps a = some g) :
    step s = .next { s with
      pending := rest
      responses := s.responses ++ [⟨.okay, (readTarget g { s with pending := rest }).1⟩]
      drawn := (readTarget g { s with pending := rest }).2 } := by
  have hn : (BitVec.ofNat 32 a).toNat = a := by rw [BitVec.toNat_ofNat, Nat.mod_eq_of_lt ha]
  have hal : aligned (BitVec.ofNat 32 a) = true := by simp only [aligned, hn, h4, beq_self_eq_true]
  simp only [step, hp, answer, hostRead, hal, hn, hg, if_true]
  rfl

theorem decodeAddr_freq (c : Caps) (x : Byte) : decodeAddr c (0x400 + 4 * x.toNat) = some (.freq x) := by
  have hx := x.isLt
  rw [decodeAddr, if_neg (by omega), if_pos (by omega), show (0x400 + 4 * x.toNat - 0x400) / 4 = x.toNat by omega,
    BitVec.ofNat_toNat, BitVec.setWidth_eq]

theorem decodeAddr_node (c : Caps) {n w : Nat} (hn : n ≤ 510) (hw : w ≤ 3) :
    decodeAddr c (0x2000 + 16 * n + 4 * w) = some (.node (BitVec.ofNat 9 n) w) := by
  rw [decodeAddr, if_neg (by omega), if_neg (by omega), if_pos (by omega),
    show (0x2000 + 16 * n + 4 * w - 0x2000) / 16 = n by omega, show (0x2000 + 16 * n + 4 * w - 0x2000) / 4 % 4 = w by omega]

theorem decodeAddr_code (c : Caps) (x : Byte) {w : Nat} (hw : w ≤ 15) :
    decodeAddr c (0x4000 + 64 * x.toNat + 4 * w) = some (.code x w) := by
  have hx := x.isLt
  rw [decodeAddr, if_neg (by omega), if_neg (by omega), if_neg (by omega), if_pos (by omega),
    show (0x4000 + 64 * x.toNat + 4 * w - 0x4000) / 64 = x.toNat by omega,
    show (0x4000 + 64 * x.toNat + 4 * w - 0x4000) / 4 % 16 = w by omega, BitVec.ofNat_toNat, BitVec.setWidth_eq]

/-- Node `n` as the word the host reads; every index up to 510 names a node. -/
theorem readTarget_node (s : State) {n : Nat} (hn : n ≤ 510) (w : Nat) :
    readTarget (.node (BitVec.ofNat 9 n) w) s = ((nodeAt s.node n).word w, s.drawn) := by
  have hidx : (BitVec.ofNat 9 n).toNat = n := nodeIdx_toNat (by omega)
  rw [readTarget, nodeGet_eq_some _ _ (by omega), hidx]
  rfl

/-- Settles O55: the address map gives the register or the table entry, and reading it draws nothing. -/
theorem registerAndTableReads : Obligations.RegisterAndTableReads := by
  intro s rest
  refine ⟨fun p hmem hp => ?_, fun x hp => ?_, fun n w hn hw hp => ?_, fun x w hw hp => ?_⟩
  · obtain ⟨r, hr, hv, h4⟩ : ∃ r, decodeAddr s.caps p.1 = some (.reg r) ∧ p.2 = readReg r s ∧ p.1 % 4 = 0 := by
      simp only [List.mem_cons, List.not_mem_nil, or_false] at hmem
      rcases hmem with rfl | rfl | rfl | rfl | rfl | rfl | rfl | rfl | rfl | rfl <;> simp [decodeAddr, regOfSlot, readReg]
    have hlt : p.1 < 0x28 := decodeAddr_sound hr
    rw [step_read hp (by omega) h4 hr, hv]
    rfl
  · have hx := x.isLt
    exact step_read hp (by omega) (by omega) (decodeAddr_freq s.caps x)
  · rw [step_read hp (by omega) (by omega) (decodeAddr_node s.caps hn hw), readTarget_node _ hn]
  · have hx := x.isLt
    exact step_read hp (by omega) (by omega) (decodeAddr_code s.caps x hw)

/-! The bits of the words. -/

/-- RESULT is at most 5 (60_exceptions R240). -/
theorem resultCode_number_le (r : ResultCode) : r.number.toNat ≤ 5 := by cases r <;> decide

/-- Bits `[start .. start + len)` of a word are the field whose bits they are. -/
theorem extractLsb'_eq_of_getLsbD {n start len : Nat} {w : BitVec n} {f : BitVec len}
    (h : ∀ i, i < len → w.getLsbD (start + i) = f.getLsbD i) : w.extractLsb' start len = f :=
  BitVec.eq_of_getLsbD_eq fun i hi => by simp [hi, h i hi]

/-- A flag as a field of one bit. -/
theorem getLsbD_ofBool_ite (b : Bool) (i : Nat) : (BitVec.ofBool b).getLsbD i = if i = 0 then b else false := by
  rw [BitVec.getLsbD_ofBool]
  split_ifs with h <;> simp [h]

/-- Every bit of STATUS (10_state R25). -/
theorem statusWord_getLsbD (st : Status) (i : Nat) : st.word.getLsbD i =
    if i < 4 then st.result.number.getLsbD i else if i < 5 then st.sticky else if i < 8 then false
    else st.lastop.getLsbD (i - 8) := by
  change (0#16 ++ st.lastop ++ 0#3 ++ BitVec.ofBool st.sticky ++ st.result.number : BitVec (16 + 8 + 3 + 1 + 4)).getLsbD i = _
  simp only [BitVec.getLsbD_append, BitVec.getLsbD_zero, getLsbD_ofBool_ite, Nat.sub_sub]
  grind

/-- Every bit of TREE (10_state R30). -/
theorem treeWord_getLsbD (t : Tree) {i : Nat} (hi : i < 32) : t.word.getLsbD i =
    if i < 9 then t.root.getLsbD i else if i < 18 then t.nleaf.getLsbD (i - 9)
    else if i < 28 then t.nnodes.getLsbD (i - 18) else if i < 31 then false else t.valid := by
  change (BitVec.ofBool t.valid ++ 0#3 ++ t.nnodes ++ t.nleaf ++ t.root : BitVec (1 + 3 + 10 + 9 + 9)).getLsbD i = _
  simp only [BitVec.getLsbD_append, BitVec.getLsbD_zero, getLsbD_ofBool_ite, Nat.sub_sub]
  grind

theorem nodeWord1_getLsbD (n : Node) (i : Nat) : (n.word 1).getLsbD i =
    if i < 8 then n.nfreq.getLsbD (32 + i) else false := by
  change (0#24 ++ n.nfreq.extractLsb' 32 8 : BitVec (24 + 8)).getLsbD i = _
  simp only [BitVec.getLsbD_append, BitVec.getLsbD_zero, BitVec.getLsbD_extractLsb']
  grind

theorem nodeWord2_getLsbD (n : Node) {i : Nat} (hi : i < 32) : (n.word 2).getLsbD i =
    if i < 8 then n.sym.getLsbD i else if i < 17 then n.left.getLsbD (i - 8)
    else if i < 26 then n.right.getLsbD (i - 17) else if i < 30 then false
    else if i < 31 then n.leaf else n.valid := by
  change (BitVec.ofBool n.valid ++ BitVec.ofBool n.leaf ++ 0#4 ++ n.right ++ n.left ++ n.sym :
    BitVec (1 + 1 + 4 + 9 + 9 + 8)).getLsbD i = _
  simp only [BitVec.getLsbD_append, BitVec.getLsbD_zero, getLsbD_ofBool_ite, Nat.sub_sub]
  grind

/-- Settles O58: every field is read off the bits of its word. -/
theorem registerAndNodeLayout : Obligations.RegisterAndNodeLayout := by
  refine ⟨by decide, fun st => ?_, fun t => ?_, fun n => ?_⟩
  · have hresult : st.word.extractLsb' 0 4 = st.result.number :=
      extractLsb'_eq_of_getLsbD fun i hi => by grind [statusWord_getLsbD]
    refine ⟨hresult, statusWord_getLsbD st 4, ?_, ?_, ?_, hresult ▸ resultCode_number_le st.result⟩ <;>
      exact extractLsb'_eq_of_getLsbD fun i hi => by grind [statusWord_getLsbD]
  · refine ⟨?_, ?_, ?_, ?_, treeWord_getLsbD t (i := 31) (by decide)⟩ <;>
      exact extractLsb'_eq_of_getLsbD fun i hi => by grind [treeWord_getLsbD]
  · refine ⟨rfl, ?_, ?_, ?_, ?_, ?_, ?_, nodeWord2_getLsbD n (i := 30) (by decide),
      nodeWord2_getLsbD n (i := 31) (by decide), rfl⟩ <;>
      exact extractLsb'_eq_of_getLsbD fun i hi => by grind [nodeWord1_getLsbD, nodeWord2_getLsbD]

end Sys2Proof.Machine
end

section
/-! PROOF. The host port: which accesses are refused, what a read of a buffer window gives, and what a write stores. Each step
is said by what its address names, and the address map by the ranges of 20_memory R65 and R66. -/

namespace Sys2Proof.Machine

/-! The address map. -/

/-- Every capacity is at most 2^26 (00_scope R6), so the buffer windows do not meet. -/
theorem caps_le {c : Caps} (h : c.wellFormed = true) :
    c.srcCap ≤ 67108864 ∧ c.artCap ≤ 67108864 ∧ c.dstCap ≤ 67108864 := by
  simp only [Caps.wellFormed, capOk, Bool.and_eq_true] at h
  obtain ⟨⟨⟨-, hsrc⟩, -, hart⟩, -, hdst⟩ := h
  exact ⟨of_decide_eq_true hsrc, of_decide_eq_true hart, of_decide_eq_true hdst⟩

theorem aligned_iff_mod {a : Word} : aligned a = true ↔ a.toNat % 4 = 0 := by simp [aligned]

theorem aligned_iff_extract {a : Word} : aligned a = true ↔ a.extractLsb' 0 2 = 0#2 := by
  rw [aligned_iff_mod, ← BitVec.toNat_inj]
  simp

/-- The holes of the map name nothing (20_memory R66). -/
theorem decodeAddr_unmapped {c : Caps} {a : Nat} (hc : c.wellFormed = true) (h : Unmapped c a) : decodeAddr c a = none := by
  obtain ⟨hsrc, hart, hdst⟩ := caps_le hc
  unfold Unmapped at h
  rw [decodeAddr, if_neg (by omega), if_neg (by omega), if_neg (by omega), if_neg (by omega), if_neg (by omega),
    if_neg (by omega), if_neg (by omega)]

theorem decodeAddr_src {c : Caps} {i : Nat} (hi : i < c.srcCap) : decodeAddr c (0x10000000 + 4 * i) = some (.src i) := by
  rw [decodeAddr, if_neg (by omega), if_neg (by omega), if_neg (by omega), if_neg (by omega), if_pos (by omega),
    show (0x10000000 + 4 * i - 0x10000000) / 4 = i by omega]

theorem decodeAddr_art {c : Caps} {i : Nat} (hc : c.wellFormed = true) (hi : i < c.artCap) :
    decodeAddr c (0x20000000 + 4 * i) = some (.art i) := by
  obtain ⟨hsrc, -, -⟩ := caps_le hc
  rw [decodeAddr, if_neg (by omega), if_neg (by omega), if_neg (by omega), if_neg (by omega), if_neg (by omega),
    if_pos (by omega), show (0x20000000 + 4 * i - 0x20000000) / 4 = i by omega]

theorem decodeAddr_dst {c : Caps} {i : Nat} (hc : c.wellFormed = true) (hi : i < c.dstCap) :
    decodeAddr c (0x30000000 + 4 * i) = some (.dst i) := by
  obtain ⟨hsrc, hart, -⟩ := caps_le hc
  rw [decodeAddr, if_neg (by omega), if_neg (by omega), if_neg (by omega), if_neg (by omega), if_neg (by omega),
    if_neg (by omega), if_pos (by omega), show (0x30000000 + 4 * i - 0x30000000) / 4 = i by omega]

/-- An aligned read-only address names something that takes no write: a read-only register, or an entry of NODE, CODE or
DST (20_memory R68). -/
theorem decodeAddr_readOnly {c : Caps} {a : Nat} (hc : c.wellFormed = true) (h : ReadOnly c a) (h4 : a % 4 = 0) :
    ∃ g, decodeAddr c a = some g ∧ g ≠ .reg .cmd ∧ ∀ w s, writeTarget g w s = none := by
  rcases h with hreg | hnode | hcode | hdst
  · simp only [List.mem_cons, List.not_mem_nil, or_false] at hreg
    rcases hreg with rfl | rfl | rfl | rfl | rfl | rfl | rfl <;>
      exact ⟨_, rfl, by decide, fun _ _ => rfl⟩
  · obtain ⟨n, w, hn, hw, rfl⟩ : ∃ n w, n ≤ 510 ∧ w ≤ 3 ∧ a = 0x2000 + 16 * n + 4 * w :=
      ⟨(a - 0x2000) / 16, (a - 0x2000) / 4 % 4, by omega, by omega, by omega⟩
    exact ⟨_, decodeAddr_node c hn hw, by simp, fun _ _ => rfl⟩
  · obtain ⟨x, w, hw, rfl⟩ : ∃ (x : Byte) (w : Nat), w ≤ 15 ∧ a = 0x4000 + 64 * x.toNat + 4 * w :=
      ⟨BitVec.ofNat 8 ((a - 0x4000) / 64), (a - 0x4000) / 4 % 16, by omega, by rw [BitVec.toNat_ofNat]; omega⟩
    exact ⟨_, decodeAddr_code c x hw, by simp, fun _ _ => rfl⟩
  · obtain ⟨i, hi, rfl⟩ : ∃ i, i < c.dstCap ∧ a = 0x30000000 + 4 * i := ⟨(a - 0x30000000) / 4, by omega, by omega⟩
    exact ⟨_, decodeAddr_dst hc hi, by simp, fun _ _ => rfl⟩

/-! The step on an access. -/

theorem step_of_pending {s : State} {x : HostInput} {rest : List HostInput} (hp : s.pending = x :: rest) :
    step s = answer runCommand x { s with pending := rest } := by
  simp only [step, hp]

/-- A read of an address that is not aligned or names nothing is refused (20_memory R66, R67). -/
theorem hostRead_refused {a : Word} {s : State} (h : aligned a = true → decodeAddr s.caps a.toNat = none) :
    hostRead a s = busError s := by
  rw [hostRead]
  split_ifs with ha
  · rw [h ha]
  · rfl

theorem storeWrite_of_none {g : Target} {w : Word} {s : State} (h : writeTarget g w s = none) :
    storeWrite g w s = busError s := by rw [storeWrite, h]

/-- A length up to the capacity is stored, a greater one refused (10_state R27). -/
theorem storeWrite_srcLen (w : Word) (s : State) : storeWrite (.reg .srcLen) w s =
    if w.toNat ≤ s.caps.srcCap then respond .okay 0 { s with srcLen := w } else busError s := by
  split_ifs with h <;> simp [storeWrite, writeTarget, writeReg, lengthFits, h]

/-- The same for ART_LEN (10_state R28). -/
theorem storeWrite_artLen (w : Word) (s : State) : storeWrite (.reg .artLen) w s =
    if w.toNat ≤ s.caps.artCap then respond .okay 0 { s with artLen := w } else busError s := by
  split_ifs with h <;> simp [storeWrite, writeTarget, writeReg, lengthFits, h]

section
variable {run : Word → State → Host.Outcome State Fault Refusal} {a w : Word} {s : State}

/-- A write to an address that is not aligned or names nothing is refused (20_memory R66, R67). -/
theorem hostWrite_refused (h : aligned a = true → decodeAddr s.caps a.toNat = none) :
    hostWrite run a w s = .next (busError s) := by
  rw [hostWrite]
  split_ifs with ha
  · rw [h ha]
  · rfl

/-- A write to an aligned address that names something other than CMD runs no command (20_memory R63). -/
theorem hostWrite_store {g : Target} (ha : aligned a = true) (hg : decodeAddr s.caps a.toNat = some g)
    (hne : g ≠ .reg .cmd) : hostWrite run a w s = .next (storeWrite g w s) := by
  simp only [hostWrite, ha, hg, hne, if_true, if_false]

end

/-- The write counterpart of `step_read`, for all but CMD. -/
theorem step_write {s : State} {rest : List HostInput} {a : Nat} {w : Word} {g : Target}
    (hp : s.pending = .write (BitVec.ofNat 32 a) w :: rest) (ha : a < 2 ^ 32) (h4 : a % 4 = 0)
    (hg : decodeAddr s.caps a = some g) (hne : g ≠ .reg .cmd) :
    step s = .next (storeWrite g w { s with pending := rest }) := by
  have hn : (BitVec.ofNat 32 a).toNat = a := by rw [BitVec.toNat_ofNat, Nat.mod_eq_of_lt ha]
  rw [step_of_pending hp]
  exact hostWrite_store (aligned_iff_mod.mpr (hn.symm ▸ h4)) (hn.symm ▸ hg) hne

/-! Refused accesses, reads and idle steps. -/

/-- Settles O52: in a hole of the map the address names nothing, and a misaligned address is not looked up. -/
theorem badAddressRefused : Obligations.BadAddressRefused := by
  intro s a w rest hc hbad hp
  have hnone : aligned a = true → decodeAddr s.caps a.toNat = none := fun ha =>
    hbad.elim (decodeAddr_unmapped hc) fun hlow => absurd (aligned_iff_extract.mp ha) hlow
  rcases hp with hp | hp <;> rw [step_of_pending hp]
  · exact congrArg Host.Outcome.next (hostRead_refused hnone)
  · exact hostWrite_refused hnone

/-- Settles O53: an aligned read-only address names something that takes no write (`decodeAddr_readOnly`); the read of CMD is
O55's. -/
theorem readOnlyWriteRefused : Obligations.ReadOnlyWriteRefused := by
  refine ⟨fun s a w rest hc hro hp => ?_, fun s rest hp => ?_⟩
  · rw [step_of_pending hp]
    by_cases ha : aligned a = true
    · obtain ⟨g, hg, hne, hnone⟩ := decodeAddr_readOnly hc hro (aligned_iff_mod.mp ha)
      exact (hostWrite_store (s := { s with pending := rest }) ha hg hne).trans
        (congrArg Host.Outcome.next (storeWrite_of_none (hnone w _)))
    · exact hostWrite_refused fun h => absurd h ha
  · obtain ⟨hreg, -⟩ := registerAndTableReads s rest
    exact hreg (0x00, 0#32) List.mem_cons_self hp

/-- Settles O54: a read does what `hostRead_eq` says, and a step without input is none. -/
theorem readAndIdleChangeNothing : Obligations.ReadAndIdleChangeNothing := by
  refine ⟨fun s a rest hp => ?_, fun s hp => by simp only [step, hp]⟩
  obtain ⟨r, v, d, hread⟩ := hostRead_eq a { s with pending := rest }
  exact ⟨⟨r, v⟩, d, (step_of_pending hp).trans (congrArg Host.Outcome.next hread)⟩

/-! Buffers. -/

/-- Every address of a buffer window is aligned and a host word, and reading it draws from its buffer (20_memory R65). -/
theorem bufferWindow_target {s : State} {i base cap : Nat} {m : Memory} (hc : s.caps.wellFormed = true) (hi : i < cap)
    (hw : (base, cap, m) ∈ [(0x10000000, s.caps.srcCap, s.src), (0x20000000, s.caps.artCap, s.art),
      (0x30000000, s.caps.dstCap, s.dst)]) :
    base + 4 * i < 2 ^ 32 ∧ (base + 4 * i) % 4 = 0 ∧ ∃ g, decodeAddr s.caps (base + 4 * i) = some g ∧
      ∀ rest, readTarget g { s with pending := rest } = readBuffer m i s.drawn := by
  obtain ⟨hsrc, hart, hdst⟩ := caps_le hc
  simp only [List.mem_cons, List.not_mem_nil, or_false, Prod.mk.injEq] at hw
  rcases hw with ⟨rfl, rfl, rfl⟩ | ⟨rfl, rfl, rfl⟩ | ⟨rfl, rfl, rfl⟩
  · exact ⟨by omega, by omega, .src i, decodeAddr_src hi, fun _ => rfl⟩
  · exact ⟨by omega, by omega, .art i, decodeAddr_art hc hi, fun _ => rfl⟩
  · exact ⟨by omega, by omega, .dst i, decodeAddr_dst hc hi, fun _ => rfl⟩

/-- Settles O56: the read draws the entry, which is its byte where it has one. -/
theorem bufferReads : Obligations.BufferReads := by
  intro s rest i base cap m hc hi hw hp
  obtain ⟨hlt, h4, g, hg, hread⟩ := bufferWindow_target hc hi hw
  have hstep := step_read hp hlt h4 hg
  rw [hread] at hstep
  refine ⟨fun b hb => ?_, fun _ => ⟨_, _, hstep⟩⟩
  rw [hstep, readBuffer, memory_draw_of_read hb]

/-- Settles O57: by what the address names; the table and buffer laws give the entries after the write. -/
theorem hostWritesStore : Obligations.HostWritesStore := by
  intro s w rest hc
  obtain ⟨hsrc, hart, -⟩ := caps_le hc
  refine ⟨fun x hp => ?_, fun i hi hp => ?_, fun i hi hp => ?_, fun hp => ?_, fun hp => ?_⟩
  · have hx := x.isLt
    exact ⟨_, step_write hp (by omega) (by omega) (decodeAddr_freq s.caps x) (by simp),
      symGet_symSet_self _ _ _, fun _ hy => symGet_symSet_ne _ _ hy⟩
  · exact ⟨_, step_write hp (by omega) (by omega) (decodeAddr_src hi) (by simp),
      memory_read_write_self _ _ _, fun _ hj => memory_read_write_ne _ _ hj⟩
  · exact ⟨_, step_write hp (by omega) (by omega) (decodeAddr_art hc hi) (by simp),
      memory_read_write_self _ _ _, fun _ hj => memory_read_write_ne _ _ hj⟩
  · rw [step_write (a := 0x0C) hp (by decide) (by decide) (g := .reg .srcLen) rfl (by decide), storeWrite_srcLen]
    split_ifs <;> rfl
  · rw [step_write (a := 0x10) hp (by decide) (by decide) (g := .reg .artLen) rfl (by decide), storeWrite_artLen]
    split_ifs <;> rfl

end Sys2Proof.Machine
end

section
/-! PROOF. Command words and code entries. Decoding is said once by its outcomes, each by the word's two fields (30_encoding
R93), and a command's word by the same two fields (R92); the words of a code entry by their bits (R102). -/

namespace Sys2Proof.Machine

/-! The opcode map. -/

theorem commandWord_statement (i : Instr) : Laws.CommandWord.Statement i := by
  cases i
  · exact Laws.CommandWord.nop
  · exact Laws.CommandWord.clear
  · exact Laws.CommandWord.count
  · exact Laws.CommandWord.build
  · exact Laws.CommandWord.codes
  · exact Laws.CommandWord.pack
  · exact Laws.CommandWord.unpack
  · exact Laws.CommandWord.eclr

/-- The opcode map gives each command its own opcode and no other (30_encoding R92). -/
theorem commandOfOpcode_eq_some_iff {opc : Byte} {i : Instr} : commandOfOpcode opc = some i ↔ opc = opcodeOf i := by
  constructor
  · intro h
    unfold commandOfOpcode at h
    split at h <;> cases h <;> exact BitVec.eq_of_toNat_eq ‹_›
  · rintro rfl
    obtain ⟨-, -, hmap⟩ := commandWord_statement i
    exact hmap

/-- The opcodes above 7 are the unassigned ones: each of 0 to 7 has a case of its own in the map (30_encoding R93). -/
theorem commandOfOpcode_eq_none_iff {opc : Byte} : commandOfOpcode opc = none ↔ 7 < opc.toNat := by
  unfold commandOfOpcode
  split <;> grind

/-! The outcomes of decoding. -/

theorem decode_eq_reservedBits_iff {w : Word} : decode w = .error .reservedBits ↔ w.extractLsb' 8 24 ≠ 0#24 := by
  unfold decode
  split_ifs with hzero
  · simp [hzero]
  · split <;> simpa using hzero

theorem decode_eq_unassignedOpcode_iff {w : Word} :
    decode w = .error .unassignedOpcode ↔ w.extractLsb' 8 24 = 0#24 ∧ commandOfOpcode (w.extractLsb' 0 8) = none := by
  unfold decode
  split_ifs with hzero
  · simp [hzero]
  · split <;> simp_all

theorem decode_eq_ok_iff {w : Word} {i : Instr} :
    decode w = .ok i ↔ w.extractLsb' 8 24 = 0#24 ∧ commandOfOpcode (w.extractLsb' 0 8) = some i := by
  unfold decode
  split_ifs with hzero
  · simp [hzero]
  · split <;> simp_all

/-! A command's word. -/

/-- A word is its fields ZERO and OPC, one above the other (30_encoding R91). -/
theorem word_eq_fields (w : Word) : w = w.extractLsb' 8 24 ++ w.extractLsb' 0 8 := by
  rw [BitVec.extractLsb'_append_extractLsb'_eq_extractLsb' (by decide)]
  exact BitVec.extractLsb'_eq_self.symm

/-- A command's word has ZERO 0 and the command's opcode, and no other word has (30_encoding R92). -/
theorem eq_encode_iff {w : Word} {i : Instr} :
    w = encode i ↔ w.extractLsb' 8 24 = 0#24 ∧ w.extractLsb' 0 8 = opcodeOf i := by
  have hzero : (encode i).extractLsb' 8 24 = 0#24 := by
    obtain ⟨-, hword, -⟩ := commandWord_statement i
    obtain ⟨hz, -⟩ := (Bool.and_eq_true _ _).mp hword
    exact beq_iff_eq.mp hz
  constructor
  · rintro rfl
    exact ⟨hzero, rfl⟩
  · rintro ⟨hz, hopc⟩
    calc w = w.extractLsb' 8 24 ++ w.extractLsb' 0 8 := word_eq_fields w
      _ = (encode i).extractLsb' 8 24 ++ (encode i).extractLsb' 0 8 := by rw [hz, hopc, hzero, opcodeOf]
      _ = encode i := (word_eq_fields _).symm

/-- Settles O1: both sides say that ZERO is 0 and that OPC is the command's opcode. -/
theorem decodeIffEncoded : Obligations.DecodeIffEncoded := by
  intro w i
  rw [decode_eq_ok_iff, commandOfOpcode_eq_some_iff, eq_encode_iff]

theorem decode_encode (i : Instr) : decode (encode i) = .ok i := (decodeIffEncoded _ i).mpr rfl

/-- Settles O2: the outcomes of decoding, with the opcodes of the map being those up to 7. -/
theorem illegalWordsByName : Obligations.IllegalWordsByName := by
  intro w
  refine ⟨decode_eq_reservedBits_iff, ?_, ?_⟩
  · rw [decode_eq_unassignedOpcode_iff, commandOfOpcode_eq_none_iff]
  · have hmap : (∃ i, commandOfOpcode (w.extractLsb' 0 8) = some i) ↔ (w.extractLsb' 0 8).toNat ≤ 7 := by
      rw [← Option.ne_none_iff_exists', ne_eq, commandOfOpcode_eq_none_iff, not_lt]
    simp only [decode_eq_ok_iff, exists_and_left, hmap]

/-- Settles O3: the eight words are the commands' own, and the two others have an opcode above 7 and a reserved bit. -/
theorem opcodeMapWords : Obligations.OpcodeMapWords :=
  ⟨decode_encode .nop, decode_encode .clear, decode_encode .count, decode_encode .build, decode_encode .codes,
    decode_encode .pack, decode_encode .unpack, decode_encode .eclr, decode_eq_unassignedOpcode_iff.mpr (by decide),
    decode_eq_reservedBits_iff.mpr (by decide)⟩

/-! The words of a code entry. -/

/-- Every bit of word 0 (30_encoding R102). -/
theorem codeEntryWord_zero_getLsbD (e : CodeEntry) {i : Nat} (hi : i < 32) : (e.word 0).getLsbD i =
    if i < 8 then e.len.getLsbD i else if i < 31 then false else e.valid := by
  change (BitVec.ofBool e.valid ++ 0#23 ++ e.len : BitVec (1 + 23 + 8)).getLsbD i = _
  simp only [BitVec.getLsbD_append, BitVec.getLsbD_zero, getLsbD_ofBool_ite, Nat.sub_sub]
  grind

/-- Words 1 to 8 hold CBITS, its highest bit first (30_encoding R102). -/
theorem codeEntryWord_getLsbD (e : CodeEntry) {w j : Nat} (hw1 : 1 ≤ w) (hw8 : w ≤ 8) (hj : j ≤ 31) :
    (e.word w).getLsbD (31 - j) = e.cbits.getLsbD (255 - (32 * (w - 1) + j)) := by
  have hpos : 224 - 32 * (w - 1) + (31 - j) = 255 - (32 * (w - 1) + j) := by omega
  rw [CodeEntry.word, if_neg (by omega), if_pos hw8, BitVec.getLsbD_extractLsb', hpos]
  simp [show 31 - j < 32 by omega]

theorem codeEntryWord_eq_zero (e : CodeEntry) {w : Nat} (hw : 9 ≤ w) : e.word w = 0#32 := by
  rw [CodeEntry.word, if_neg (by omega), if_neg (by omega)]
  rfl

/-- Bit `i` of a code is `CBITS[255-i]` (10_state R34). -/
theorem codeBits_getElem? {e : CodeEntry} {i : Nat} (hi : i < e.len.toNat) :
    (codeBits e)[i]? = some (e.cbits.getLsbD (255 - i)) := by
  simp [codeBits, hi]

/-- Settles O59: the fields of word 0 are read off its bits, and bit 31 - j of word w is the bit of CBITS that the code's bit
is. -/
theorem codeEntryLayout : Obligations.CodeEntryLayout := by
  intro e
  refine ⟨extractLsb'_eq_of_getLsbD fun i hi => ?_, extractLsb'_eq_of_getLsbD fun i hi => ?_,
    codeEntryWord_zero_getLsbD e (i := 31) (by decide), codeBits_length e, fun w j hw1 hw8 hj => ?_,
    fun w hw _ => codeEntryWord_eq_zero e hw⟩
  · rw [codeEntryWord_zero_getLsbD e (by omega), Nat.zero_add, if_pos hi]
  · rw [codeEntryWord_zero_getLsbD e (by omega), if_neg (by omega), if_pos (by omega), BitVec.getLsbD_zero]
  · have hbit := codeEntryWord_getLsbD e hw1 hw8 hj
    exact ⟨hbit, fun hlen => by rw [codeBits_getElem? hlen, hbit]⟩

end Sys2Proof.Machine
end

section
/-! PROOF. COUNT (41_count). The table of any sequence holds each symbol's number of occurrences modulo 2^32; a sequence that
SRC_LEN can measure is too short for a count to wrap (R121), and the order of its symbols does not enter (R124). -/

namespace Sys2Proof.Machine

/-! The table of a sequence. -/

theorem countAll_append_singleton (xs : List Byte) (x : Byte) : countAll (xs ++ [x]) = countOne (countAll xs) x := by
  simp [countAll]

/-- What COUNT leaves in `FREQ[x]`, whether or not it wraps (41_count R120). -/
theorem symGet_countAll (xs : List Byte) (x : Byte) : symGet (countAll xs) x = BitVec.ofNat 32 (xs.count x) := by
  induction xs using List.reverseRecOn with
  | nil => exact symGet_freq_empty x
  | append_singleton xs y ih =>
    rw [countAll_append_singleton, countOne, symGet_symSet, List.count_append]
    by_cases h : x = y
    · subst h
      simp [ih, BitVec.ofNat_add]
    · simp [ih, h, Ne.symm h]

/-- No count wraps (41_count R121). -/
theorem symGet_countAll_toNat {xs : List Byte} (h : xs.length < 2 ^ 32) (x : Byte) :
    (symGet (countAll xs) x).toNat = xs.count x := by
  rw [symGet_countAll, BitVec.toNat_ofNat, Nat.mod_eq_of_lt (List.count_le_length.trans_lt h)]

theorem countAll_perm {xs ys : List Byte} (h : xs.Perm ys) : countAll xs = countAll ys :=
  symTable_ext fun x => by rw [symGet_countAll, symGet_countAll, h.count_eq x]

theorem allSymbols_nodup : allSymbols.Nodup := by
  refine List.Nodup.map_on (fun a ha b hb hab => ?_) List.nodup_range
  rw [List.mem_range] at ha hb
  have h := congrArg BitVec.toNat hab
  rwa [BitVec.toNat_ofNat, BitVec.toNat_ofNat, Nat.mod_eq_of_lt ha, Nat.mod_eq_of_lt hb] at h

/-- Every occurrence in a sequence is of exactly one symbol. -/
theorem sum_count_allSymbols (xs : List Byte) : (allSymbols.map fun x => xs.count x).sum = xs.length := by
  rw [← List.sum_toFinset _ allSymbols_nodup]
  have hcover : ∀ x ∈ (xs : Multiset Byte), x ∈ allSymbols.toFinset := fun x _ => List.mem_toFinset.mpr (mem_allSymbols x)
  simpa only [Multiset.coe_count, Multiset.coe_card] using Multiset.sum_count_eq_card hcover

/-- The counts add up to the sequence's length (41_count R120). -/
theorem sum_countAll {xs : List Byte} (h : xs.length < 2 ^ 32) :
    (allSymbols.map fun x => (symGet (countAll xs) x).toNat).sum = xs.length := by
  simp only [symGet_countAll_toNat h, sum_count_allSymbols]

/-! The command. -/

/-- COUNT over a source that holds `xs` reads `xs` and draws nothing. -/
theorem exec_count_of_holds {s : State} {xs : List Byte} (h : s.src.holds xs) (hn : s.srcLen.toNat = xs.length) :
    exec .count s = .next { s with freq := countAll xs, status := ⟨.ok, s.status.sticky, 0x02#8⟩, errInfo := 0#32 } :=
  exec_count_eq s xs s.drawn (hn ▸ drawAll_of_holds h s.drawn)

/-- Settles O14: COUNT leaves the table of the sequence the source holds. -/
theorem countCountsOccurrences : Obligations.CountCountsOccurrences := by
  intro s xs h hn
  have hlt : xs.length < 2 ^ 32 := hn ▸ s.srcLen.isLt
  exact ⟨countAll xs, exec_count_of_holds h hn, symGet_countAll_toNat hlt, (sum_countAll hlt).trans hn.symm⟩

/-- Settles O15: whatever bytes are read from the source, there are SRC_LEN of them. -/
theorem countCompletes : Obligations.CountCompletes := by
  intro s
  obtain ⟨xs, d, hread⟩ : ∃ xs d, s.src.drawAll 0 s.srcLen.toNat s.drawn = (xs, d) := ⟨_, _, rfl⟩
  have hlen : xs.length = s.srcLen.toNat := by
    rw [← memory_drawAll_length s.src 0 s.srcLen.toNat s.drawn, hread]
  refine ⟨countAll xs, d, exec_count_eq s xs d hread, (sum_countAll (hlen ▸ s.srcLen.isLt)).trans hlen, fun h0 x => ?_⟩
  have hnil : xs = [] := List.length_eq_zero_iff.mp (by rw [hlen, h0]; rfl)
  rw [hnil]
  exact symGet_freq_empty x

/-- Settles O16: both runs leave the tables of their sequences, and permuted sequences have one table. -/
theorem countIgnoresOrder : Obligations.CountIgnoresOrder := by
  intro s s' xs ys h hn h' hn' hperm
  exact ⟨_, _, exec_count_of_holds h hn, exec_count_of_holds h' hn', countAll_perm hperm⟩

end Sys2Proof.Machine
end

section
/-! PROOF. What BUILD answers, as whole states, and what follows from the shape of its tree (10_state R40 item 4): every node
has one path from the root (42_build R141), and the frequencies grow towards the root (R142). -/

namespace Sys2Proof.Machine

/-! The command. -/

/-- The node memory that BUILD leaves (42_build R130). -/
def builtNodes (f : FreqTable) : NodeTable := nodeTableOf (mergeAll (seed f)).nodes

/-- The `TREE` that BUILD leaves (42_build R140). -/
def builtTree (f : FreqTable) : Tree := treeOf (presentSymbols f).length (mergeAll (seed f))

/-- BUILD leaves a tree of 10_state R40 item 4 (42_build R141). -/
theorem builtNodes_treeShape {f : FreqTable} (h : presentSymbols f ≠ []) :
    TreeShape (builtTree f) (builtNodes f) (presentSymbols f).length :=
  build_treeShape h

/-- BUILD leaves the leaf of the `j`-th symbol in node `j` (42_build R133). -/
theorem nodeAt_builtNodes_leaf (f : FreqTable) {j : Nat} (h : j < (presentSymbols f).length) :
    nodeAt (builtNodes f) j = leafNode (presentSymbols f)[j] (symGet f (presentSymbols f)[j]) :=
  nodeAt_mergeAll_leaf f h

theorem presentSymbols_eq_nil {f : FreqTable} (h : ∀ x, symGet f x = 0#32) : presentSymbols f = [] := by
  simp [presentSymbols, h]

/-- BUILD's whole effect on a table that is not empty (42_build R140, R147). -/
theorem exec_build_of_nonempty {s : State} (h : presentSymbols s.freq ≠ []) :
    exec .build s = .next { s with
      node := builtNodes s.freq
      tree := builtTree s.freq
      status := ⟨.ok, s.status.sticky, 0x03#8⟩
      errInfo := 0#32 } := by
  rw [exec_build_eq, if_neg h]
  rfl

/-- Settles O17: a table of zeros has no symbol, and BUILD then raises EmptyAlphabet. -/
theorem buildOfEmptyTable : Obligations.BuildOfEmptyTable := by
  intro s h
  rw [exec_build_eq, if_pos (presentSymbols_eq_nil h)]
  rfl

/-! Paths in a tree. -/

/-- The last step of a path goes from an internal node to its child. -/
theorem follow_append_singleton {t : NodeTable} {r n : Nat} {p : Bits} {b : Bool} :
    follow t r (p ++ [b]) = some n ↔ ∃ m, follow t r p = some m ∧ (nodeAt t m).leaf = false ∧
      (if b then (nodeAt t m).right.toNat else (nodeAt t m).left.toNat) = n := by
  rw [follow_append, Option.bind_eq_some_iff]
  refine exists_congr fun m => and_congr_right fun _ => ?_
  cases hl : (nodeAt t m).leaf <;> simp [follow, hl]

section
variable {tr : Tree} {t : NodeTable} {k n m : Nat}

/-- A node of the tree is internal exactly when it is not among the leaves. -/
theorem TreeShape.leaf_eq_false_iff (h : TreeShape tr t k) (hn : n < 2 * k - 1) : (nodeAt t n).leaf = false ↔ k ≤ n := by
  rcases Nat.lt_or_ge n k with hnk | hnk
  · obtain ⟨-, hl, -⟩ := h.leaves n hnk
    simp [hl, hnk]
  · obtain ⟨-, hl, -⟩ := h.internal n hnk hn
    simp [hl, hnk]

theorem isChild_iff_exists_bit :
    IsChild t n m ↔ ∃ b : Bool, (if b then (nodeAt t m).right.toNat else (nodeAt t m).left.toNat) = n := by
  simp [IsChild]

/-- Where the children differ, the child says which bit led to it. -/
theorem bit_eq_of_child_eq {l r : Nat} {b b' : Bool} (hne : l ≠ r) (h : (if b' then r else l) = if b then r else l) :
    b' = b := by
  cases b <;> cases b' <;> simp [hne, hne.symm] at h ⊢

/-- A child's index is smaller than its parent's. -/
theorem TreeShape.child_lt (h : TreeShape tr t k) (hkm : k ≤ m) (hm : m < 2 * k - 1) (hc : IsChild t n m) : n < m := by
  obtain ⟨-, -, -, hl, hr, -⟩ := h.internal m hkm hm
  rcases hc with rfl | rfl
  · exact hl
  · exact hr

/-- Every path from the root stays in the tree. -/
theorem TreeShape.follow_lt (h : TreeShape tr t k) {c : Bits} (hc : follow t (2 * k - 2) c = some n) : n < 2 * k - 1 := by
  have hk := h.leaf_count
  induction c using List.reverseRecOn generalizing n with
  | nil => cases hc; omega
  | append_singleton p b ih =>
    obtain ⟨m, hm, hl, hb⟩ := follow_append_singleton.mp hc
    have hmlt := ih hm
    exact (h.child_lt ((h.leaf_eq_false_iff hmlt).mp hl) hmlt (isChild_iff_exists_bit.mpr ⟨b, hb⟩)).trans hmlt

/-- The last step of a path from the root, in the tree. -/
theorem TreeShape.follow_snoc (h : TreeShape tr t k) {p : Bits} {b : Bool} :
    follow t (2 * k - 2) (p ++ [b]) = some n ↔ ∃ m, follow t (2 * k - 2) p = some m ∧ (k ≤ m ∧ m < 2 * k - 1) ∧
      (if b then (nodeAt t m).right.toNat else (nodeAt t m).left.toNat) = n := by
  refine follow_append_singleton.trans (exists_congr fun m => and_congr_right fun hm => and_congr_left fun _ => ?_)
  have hmlt := h.follow_lt hm
  rw [h.leaf_eq_false_iff hmlt, and_iff_left hmlt]

/-- One path leads from the root to each node of the tree (42_build R141). The root is no node's child, so no path returns
to it; any other node's path is its only parent's path and one more bit, and a parent's children are different. -/
theorem TreeShape.existsUnique_path (h : TreeShape tr t k) (n : Nat) (hn : n < 2 * k - 1) :
    ∃! c : Bits, follow t (2 * k - 2) c = some n := by
  by_cases hroot : n = 2 * k - 2
  · subst hroot
    refine ⟨[], rfl, fun c hc => ?_⟩
    cases c using List.reverseRecOn with
    | nil => rfl
    | append_singleton p b =>
      obtain ⟨m, -, ⟨hkm, hm⟩, hb⟩ := h.follow_snoc.mp hc
      exact absurd (isChild_iff_exists_bit.mpr ⟨b, hb⟩) (h.root_no_child m hkm hm)
  · obtain ⟨m, ⟨⟨hkm, hm⟩, hchild⟩, hparent⟩ := h.one_parent n (by omega)
    have hnm := h.child_lt hkm hm hchild
    obtain ⟨p, hp, hpath⟩ := h.existsUnique_path m hm
    obtain ⟨b, hb⟩ := isChild_iff_exists_bit.mp hchild
    refine ⟨p ++ [b], h.follow_snoc.mpr ⟨m, hp, ⟨hkm, hm⟩, hb⟩, fun c hc => ?_⟩
    cases c using List.reverseRecOn with
    | nil => exact absurd (Option.some.inj hc).symm hroot
    | append_singleton q b' =>
      obtain ⟨m', hm', hrange, hb'⟩ := h.follow_snoc.mp hc
      obtain rfl := hparent m' ⟨hrange, isChild_iff_exists_bit.mpr ⟨b', hb'⟩⟩
      obtain rfl := hpath q hm'
      obtain ⟨-, -, -, -, -, hne, -⟩ := h.internal m' hkm hm
      rw [bit_eq_of_child_eq (fun e => hne (BitVec.eq_of_toNat_eq e)) (hb'.trans hb.symm)]
termination_by 2 * k - n

/-! Frequencies in a tree. -/

/-- The children of an internal node add up to it (42_build R142). -/
theorem TreeShape.nfreq_eq (h : TreeShape tr t k) (hkn : k ≤ n) (hn : n < 2 * k - 1) :
    (nodeAt t n).nfreq.toNat =
      (nodeAt t (nodeAt t n).left.toNat).nfreq.toNat + (nodeAt t (nodeAt t n).right.toNat).nfreq.toNat := by
  obtain ⟨-, -, -, -, -, -, hf⟩ := h.internal n hkn hn
  exact hf

theorem TreeShape.nfreq_pos (h : TreeShape tr t k) (n : Nat) (hn : n < 2 * k - 1) : 0 < (nodeAt t n).nfreq.toNat := by
  rcases Nat.lt_or_ge n k with hnk | hnk
  · obtain ⟨-, -, -, -, hf, -⟩ := h.leaves n hnk
    exact hf
  · have hl := h.child_lt hnk hn (.inl rfl)
    have := h.nfreq_pos _ (hl.trans hn)
    rw [h.nfreq_eq hnk hn]
    omega
termination_by n

/-- A child's frequency is below its parent's, since the other child's is not 0. -/
theorem TreeShape.nfreq_child_lt (h : TreeShape tr t k) (hkm : k ≤ m) (hm : m < 2 * k - 1) (hc : IsChild t n m) :
    (nodeAt t n).nfreq.toNat < (nodeAt t m).nfreq.toNat := by
  have hl := h.nfreq_pos _ ((h.child_lt hkm hm (.inl rfl)).trans hm)
  have hr := h.nfreq_pos _ ((h.child_lt hkm hm (.inr rfl)).trans hm)
  rw [h.nfreq_eq hkm hm]
  rcases hc with rfl | rfl <;> omega

/-- Every other node's frequency is smaller than the root's (42_build R142). -/
theorem TreeShape.nfreq_lt_root (h : TreeShape tr t k) (n : Nat) (hn : n < 2 * k - 2) :
    (nodeAt t n).nfreq.toNat < (nodeAt t (2 * k - 2)).nfreq.toNat := by
  obtain ⟨m, ⟨⟨hkm, hm⟩, hchild⟩, -⟩ := h.one_parent n hn
  have hnm := h.child_lt hkm hm hchild
  have hlt := h.nfreq_child_lt hkm hm hchild
  rcases Nat.lt_succ_iff_lt_or_eq.mp (show m < 2 * k - 2 + 1 by omega) with hm' | rfl
  · exact hlt.trans (h.nfreq_lt_root m hm')
  · exact hlt
termination_by 2 * k - n

end

/-! The tree BUILD makes. -/

/-- The tree's root is the entry left in the queue, which holds the sum of all counts (42_build R137, R142). -/
theorem build_root_nfreq {f : FreqTable} (h : presentSymbols f ≠ []) :
    (nodeAt (builtNodes f) (builtTree f).root.toNat).nfreq.toNat = freqTotal f := by
  obtain ⟨r, hr⟩ := List.length_eq_one_iff.mp (mergeAll_queue_length h)
  have hmerging := mergeAll_merging f
  have hroot : (builtTree f).root = r.idx := by simp [builtTree, treeOf, hr, pqPopMin]
  rw [hroot, builtNodes, ← hmerging.entry r (by simp [hr]), ← hmerging.sum_eq]
  simp [Builder.queueSum, hr]

/-- Symbols that are not in the table add nothing to the sum of its counts. -/
theorem sum_counts_eq_freqTotal (f : FreqTable) : (allSymbols.map fun x => (symGet f x).toNat).sum = freqTotal f := by
  unfold freqTotal presentSymbols
  induction allSymbols with
  | nil => rfl
  | cons x l ih => by_cases hx : symGet f x = 0#32 <;> simp [hx, ih]

/-- Settles O18: the shape is the invariant of the merges, and in a tree of that shape every node has one path. -/
theorem buildMakesTree : Obligations.BuildMakesTree := by
  intro s h
  have hshape := builtNodes_treeShape h
  obtain ⟨-, -, hnnodes, hroot⟩ := hshape.tree_reg
  refine ⟨_, _, exec_build_of_nonempty h, hshape, fun n hn => ?_⟩
  rw [hroot]
  exact hshape.existsUnique_path n (hnnodes ▸ hn)

/-- Settles O23: with one leaf the shape fixes every field of TREE and every other node. -/
theorem buildOfOneSymbol : Obligations.BuildOfOneSymbol := by
  intro s x h
  have hne : presentSymbols s.freq ≠ [] := by simp [h]
  have hshape := builtNodes_treeShape hne
  have hleaf := nodeAt_builtNodes_leaf s.freq (j := 0) (by simp [h])
  refine ⟨_, exec_build_of_nonempty hne, rfl, ?_⟩
  generalize builtTree s.freq = tr at *
  simp only [h, List.length_singleton, List.getElem_cons_zero] at hshape hleaf
  have htree : tr = { valid := true, nnodes := 1, nleaf := 1, root := 0 } := by
    obtain ⟨hv, hl, hn, hr⟩ := hshape.tree_reg
    cases tr
    simp only [Tree.mk.injEq]
    exact ⟨hv, BitVec.eq_of_toNat_eq hn, BitVec.eq_of_toNat_eq hl, BitVec.eq_of_toNat_eq hr⟩
  refine ⟨htree, (congrArg Tree.word htree).trans (by decide), hleaf, fun n hn => ?_⟩
  by_cases hn' : n < 511
  · exact hshape.rest_zero n hn hn'
  · simp [nodeAt, hn']

/-- Settles O24: the root holds the sum of all counts, and every other node lies below it. -/
theorem buildSumsExact : Obligations.BuildSumsExact := by
  intro s h
  have hshape := builtNodes_treeShape h
  have hsum := build_root_nfreq h
  obtain ⟨-, -, hnnodes, hroot⟩ := hshape.tree_reg
  refine ⟨_, exec_build_of_nonempty h, ?_⟩
  simp only [hsum, sum_counts_eq_freqTotal, hnnodes, true_and]
  refine ⟨freqTotal_le _, by norm_num, fun n hn hl => ?_, fun n hn hl => ?_, fun n hn hne => ?_⟩
  · exact hshape.nfreq_eq ((hshape.leaf_eq_false_iff hn).mp hl) hn
  · have hnk : n < (presentSymbols s.freq).length := by
      by_contra hnk
      simp [(hshape.leaf_eq_false_iff hn).mpr (by omega)] at hl
    obtain ⟨-, -, -, -, -, hle⟩ := hshape.leaves n hnk
    omega
  · rw [← hsum, hroot]
    exact hshape.nfreq_lt_root n (by omega)

end Sys2Proof.Machine
end

section
/-! PROOF. The queue of BUILD and its merges: popping takes the least entry (42_build R135), the queue holds the nodes that are
not yet children (R145), from seeding (R133) through every merge (R136), and so each merge takes the two least of them. -/

namespace Sys2Proof.Machine

/-! Popping. -/

theorem QEntry.before_iff {a b : QEntry} : a.before b = true ↔
    a.freq.toNat < b.freq.toNat ∨ (a.freq.toNat = b.freq.toNat ∧ a.idx.toNat < b.idx.toNat) := by
  simp [QEntry.before]

theorem QEntry.before_trans {a b c : QEntry} (hab : a.before b = true) (hbc : b.before c = true) : a.before c = true := by
  rw [QEntry.before_iff] at *
  omega

/-- Of two entries with different indices one comes before the other. -/
theorem QEntry.before_of_not_before {a b : QEntry} (hne : a.idx ≠ b.idx) (h : ¬ a.before b = true) : b.before a = true := by
  have hne' : a.idx.toNat ≠ b.idx.toNat := fun e => hne (BitVec.eq_of_toNat_eq e)
  rw [QEntry.before_iff] at *
  omega

/-- The popped entry is before every other (42_build R135). -/
theorem pqPopMin_before {q rest : List QEntry} {e : QEntry} (hnd : (q.map QEntry.idx).Nodup)
    (h : pqPopMin q = some (e, rest)) : ∀ x ∈ rest, e.before x = true := by
  induction q generalizing e rest with
  | nil => cases h
  | cons y q ih =>
    rw [List.map_cons, List.nodup_cons] at hnd
    obtain ⟨hy, hnd⟩ := hnd
    rw [pqPopMin] at h
    split at h
    · cases h; simp
    · next m r hq =>
      have hperm := pqPopMin_perm hq
      have hm := ih hnd hq
      split_ifs at h with hym <;> cases h
      · intro x hx
        rcases List.mem_cons.mp (hperm.mem_iff.mp hx) with rfl | hx
        · exact hym
        · exact QEntry.before_trans hym (hm x hx)
      · intro x hx
        rcases List.mem_cons.mp hx with rfl | hx
        · have hmq : e.idx ∈ q.map QEntry.idx := List.mem_map_of_mem (hperm.mem_iff.mpr List.mem_cons_self)
          exact QEntry.before_of_not_before (fun heq => hy (heq ▸ hmq)) hym
        · exact hm x hx

theorem exists_pqPopMin {q : List QEntry} (h : q ≠ []) : ∃ e rest, pqPopMin q = some (e, rest) := by
  obtain ⟨⟨e, rest⟩, he⟩ := Option.ne_none_iff_exists'.mp fun hn => h (pqPopMin_eq_none.mp hn)
  exact ⟨e, rest, he⟩

/-- Settles O20: popping a queue that is not empty takes one entry, which is before the rest. -/
theorem popMinIsLeast : Obligations.PopMinIsLeast := by
  intro q hq hnd
  obtain ⟨e, rest, he⟩ := exists_pqPopMin hq
  exact ⟨e, rest, he, pqPopMin_perm he, fun x hx => QEntry.before_iff.mp (pqPopMin_before hnd he x hx)⟩

/-- A queue of two or more entries can be popped twice. -/
theorem exists_pqPopMin_two {q : List QEntry} (h : 2 ≤ q.length) :
    ∃ x q1 y q2, pqPopMin q = some (x, q1) ∧ pqPopMin q1 = some (y, q2) ∧ q.length = q2.length + 2 := by
  obtain ⟨x, q1, hx⟩ := exists_pqPopMin (List.ne_nil_of_length_pos (by omega : 0 < q.length))
  have hlen := pqPopMin_length hx
  obtain ⟨y, q2, hy⟩ := exists_pqPopMin (List.ne_nil_of_length_pos (by omega : 0 < q1.length))
  have hlen' := pqPopMin_length hy
  exact ⟨x, q1, y, q2, hx, hy, by omega⟩

/-- What two pops take: the two entries, in order, are before the rest. -/
theorem pqPopMin_two_before {q q1 q2 : List QEntry} {x y : QEntry} (hnd : (q.map QEntry.idx).Nodup)
    (hx : pqPopMin q = some (x, q1)) (hy : pqPopMin q1 = some (y, q2)) :
    q.Perm (x :: y :: q2) ∧ x.before y = true ∧ ∀ e ∈ q2, y.before e = true := by
  have hx1 := pqPopMin_perm hx
  have hy1 := pqPopMin_perm hy
  have hnd1 : (q1.map QEntry.idx).Nodup := (List.nodup_cons.mp ((hx1.map QEntry.idx).nodup_iff.mp hnd)).2
  exact ⟨hx1.trans (hy1.cons x), pqPopMin_before hnd hx y (hy1.mem_iff.mpr List.mem_cons_self),
    pqPopMin_before hnd1 hy⟩

/-! What the queue holds. -/

section
variable {k total : Nat} {b : Builder}

theorem Builder.Merging.nodup_queue (h : b.Merging k total) : (b.queue.map QEntry.idx).Nodup := by
  have hnd := (h.cover.nodup_iff.mpr List.nodup_range)
  rw [Builder.indices, List.nodup_append'] at hnd
  have hnd' : ((b.queue.map QEntry.idx).map BitVec.toNat).Nodup := by simpa [Function.comp_def] using hnd.1
  exact List.Nodup.of_map _ hnd'

/-- In the node list of a builder over `k` leaves, a node's children are what `IsChild` says. -/
theorem Builder.Merging.mem_children_iff (h : b.Merging k total) (hk : b.nodes.length ≤ 511)
    (leaves : ∀ m, m < k → (nodeAt (nodeTableOf b.nodes) m).leaf = true) (n : Nat) :
    n ∈ b.nodes.flatMap Node.children ↔ ∃ m, k ≤ m ∧ m < b.nodes.length ∧ IsChild (nodeTableOf b.nodes) n m := by
  have hget : ∀ m, (hm : m < b.nodes.length) → nodeAt (nodeTableOf b.nodes) m = b.nodes[m] := fun m hm => by
    rw [nodeAt_nodeTableOf _ (by omega), List.getD_eq_getElem _ _ hm]
  rw [List.mem_flatMap]
  constructor
  · rintro ⟨x, hx, hn⟩
    obtain ⟨m, hm, rfl⟩ := List.getElem_of_mem hx
    rw [← hget m hm] at hn
    have hkm : k ≤ m := by
      by_contra hmk
      simp [Node.children, leaves m (by omega)] at hn
    obtain ⟨-, hl, -⟩ := h.internal m hkm hm
    exact ⟨m, hkm, hm, (Machine.mem_children_iff hl).mp hn⟩
  · rintro ⟨m, hkm, hm, hc⟩
    obtain ⟨-, hl, -⟩ := h.internal m hkm hm
    exact ⟨b.nodes[m], List.getElem_mem hm, hget m hm ▸ (Machine.mem_children_iff hl).mpr hc⟩

/-- The queue holds exactly one entry for each node that is not yet a child (42_build R145). -/
theorem Builder.Merging.mem_queue_iff (h : b.Merging k total) (hk : b.nodes.length ≤ 511)
    (leaves : ∀ m, m < k → (nodeAt (nodeTableOf b.nodes) m).leaf = true) (e : QEntry) :
    e ∈ b.queue ↔ e.idx.toNat < b.nodes.length ∧ e.freq = (nodeAt (nodeTableOf b.nodes) e.idx.toNat).nfreq ∧
      ∀ m, k ≤ m → m < b.nodes.length → ¬ IsChild (nodeTableOf b.nodes) e.idx.toNat m := by
  constructor
  · intro he
    refine ⟨idx_lt_of_cover h.cover he, h.entry e he, fun m hkm hm hc => ?_⟩
    have hnd := h.cover.nodup_iff.mpr List.nodup_range
    rw [Builder.indices, List.nodup_append'] at hnd
    obtain ⟨-, -, hdisj⟩ := hnd
    exact hdisj (List.mem_map_of_mem he) ((h.mem_children_iff hk leaves _).mpr ⟨m, hkm, hm, hc⟩)
  · rintro ⟨hlt, hfreq, hchild⟩
    rcases List.mem_append.mp (h.cover.mem_iff.mpr (List.mem_range.mpr hlt)) with hq | hc
    · obtain ⟨e', he', hidx⟩ := List.mem_map.mp hq
      have hfreq' := h.entry e' he'
      rw [show e'.idx.toNat = e.idx.toNat from hidx, ← hfreq] at hfreq'
      have heq : e' = e := by
        cases e; cases e'
        exact congrArg₂ QEntry.mk hfreq' (BitVec.eq_of_toNat_eq hidx)
      exact heq ▸ he'
    · obtain ⟨m, hkm, hm, hc⟩ := (h.mem_children_iff hk leaves _).mp hc
      exact absurd hc (hchild m hkm hm)

end

/-! The merges one by one. -/

/-- Where the loop goes on after `j` rounds (42_build R145). -/
theorem mergeLoop_add (i j : Nat) (b : Builder) : mergeLoop (j + i) b = mergeLoop i (mergeLoop j b) := by
  induction j generalizing b with
  | zero => rw [Nat.zero_add, mergeLoop]
  | succ j ih =>
    rcases Nat.lt_or_ge b.queue.length 2 with hlt | hge
    · simp only [mergeLoop_of_length_le_one (Nat.le_of_lt_succ hlt)]
    · obtain ⟨x, q1, y, q2, hx, hy, -⟩ := exists_pqPopMin_two hge
      rw [Nat.add_right_comm, mergeLoop_succ hx hy, mergeLoop_succ hx hy, ih]

theorem mergeLoop_merging_seed (f : FreqTable) (j : Nat) :
    (mergeLoop j (seed f)).Merging (presentSymbols f).length (freqTotal f) :=
  mergeLoop_merging (presentSymbols_length_le f) ((freqTotal_le f).trans_lt (by norm_num)) _ (seed_merging f)

theorem seed_nodes_length (f : FreqTable) : (seed f).nodes.length = (presentSymbols f).length := by
  rw [seed_nodes, List.length_map]

theorem seed_queue_length (f : FreqTable) : (seed f).queue.length = (presentSymbols f).length := by
  have := (seed_merging f).size
  rw [seed_nodes_length] at this
  omega

/-- Each merge that finds two entries makes one node (42_build R137). -/
theorem mergeLoop_nodes_length {j : Nat} {b : Builder} (h : j < b.queue.length) :
    (mergeLoop j b).nodes.length = b.nodes.length + j := by
  induction j generalizing b with
  | zero => rfl
  | succ j ih =>
    obtain ⟨x, q1, y, q2, hx, hy, hlen⟩ := exists_pqPopMin_two (by omega : 2 ≤ b.queue.length)
    rw [mergeLoop_succ hx hy, ih (by simp; omega)]
    simp; omega

section
variable {f : FreqTable} {j : Nat}

/-- No later merge changes what `j` merges made (42_build R145). -/
theorem mergeLoop_prefix_mergeAll (hj : j ≤ (presentSymbols f).length) :
    (mergeLoop j (seed f)).nodes <+: (mergeAll (seed f)).nodes := by
  obtain ⟨i, hi⟩ := Nat.exists_eq_add_of_le hj
  rw [mergeAll, seed_queue_length, hi, mergeLoop_add]
  exact mergeLoop_nodes_prefix _ _

/-- A node made by the first `j` merges is the finished tree's (42_build R145). -/
theorem nodeAt_mergeLoop {n : Nat} (hj : j ≤ (presentSymbols f).length)
    (hn : n < (mergeLoop j (seed f)).nodes.length) :
    nodeAt (nodeTableOf (mergeLoop j (seed f)).nodes) n = nodeAt (builtNodes f) n := by
  obtain ⟨r, hr⟩ := mergeLoop_prefix_mergeAll hj
  rw [builtNodes, ← hr, nodeAt_nodeTableOf_append hn]

theorem mergeLoop_seed_nodes_length (hj : j < (presentSymbols f).length) :
    (mergeLoop j (seed f)).nodes.length = (presentSymbols f).length + j := by
  rw [mergeLoop_nodes_length (by rwa [seed_queue_length]), seed_nodes_length]

theorem mergeLoop_seed_queue_length (hj : j < (presentSymbols f).length) :
    (mergeLoop j (seed f)).queue.length = (presentSymbols f).length - j := by
  have := (mergeLoop_merging_seed f j).size
  rw [mergeLoop_seed_nodes_length hj] at this
  omega

/-- The queue after `j` merges, in terms of the nodes then made (42_build R145). -/
theorem mem_mergeLoop_queue_iff (hj : j < (presentSymbols f).length) (e : QEntry) :
    e ∈ (mergeLoop j (seed f)).queue ↔
      e.idx.toNat < (presentSymbols f).length + j ∧
      e.freq = (nodeAt (nodeTableOf (mergeLoop j (seed f)).nodes) e.idx.toNat).nfreq ∧
      ∀ m, (presentSymbols f).length ≤ m → m < (presentSymbols f).length + j →
        ¬ IsChild (nodeTableOf (mergeLoop j (seed f)).nodes) e.idx.toNat m := by
  have hlen := mergeLoop_seed_nodes_length hj
  have hk := presentSymbols_length_le f
  rw [← hlen]
  refine (mergeLoop_merging_seed f j).mem_queue_iff (by omega) (fun m hm => ?_) e
  rw [nodeAt_mergeLoop hj.le (by omega), nodeAt_builtNodes_leaf f hm]
  rfl

/-- The queue after `j` merges, in terms of the finished tree (42_build R145). -/
theorem mem_mergeLoop_queue_iff_mergeAll (hj : j < (presentSymbols f).length) (e : QEntry) :
    e ∈ (mergeLoop j (seed f)).queue ↔
      e.idx.toNat < (presentSymbols f).length + j ∧
      e.freq = (nodeAt (builtNodes f) e.idx.toNat).nfreq ∧
      ∀ m, (presentSymbols f).length ≤ m → m < (presentSymbols f).length + j →
        ¬ IsChild (builtNodes f) e.idx.toNat m := by
  have hsame : ∀ m, m < (presentSymbols f).length + j →
      nodeAt (nodeTableOf (mergeLoop j (seed f)).nodes) m = nodeAt (builtNodes f) m :=
    fun m hm => nodeAt_mergeLoop hj.le (by rwa [mergeLoop_seed_nodes_length hj])
  rw [mem_mergeLoop_queue_iff hj]
  refine and_congr_right fun hlt => and_congr (by rw [hsame _ hlt]) ?_
  refine forall_congr' fun m => imp_congr_right fun _ => imp_congr_right fun hm => ?_
  rw [IsChild, IsChild, hsame m hm]

/-- Every entry of the queue holds the frequency of its node in the finished tree. -/
theorem freq_of_mem_mergeLoop_queue (hj : j < (presentSymbols f).length) {e : QEntry}
    (he : e ∈ (mergeLoop j (seed f)).queue) :
    e.freq = (nodeAt (builtNodes f) e.idx.toNat).nfreq := by
  obtain ⟨-, hfreq, -⟩ := (mem_mergeLoop_queue_iff_mergeAll hj e).mp he
  exact hfreq

/-- A node of the finished tree that no merge so far has taken is in the queue. -/
theorem mem_mergeLoop_queue_of_not_child (hj : j < (presentSymbols f).length) {n : Nat}
    (hn : n < (presentSymbols f).length + j)
    (hchild : ∀ m, (presentSymbols f).length ≤ m → m < (presentSymbols f).length + j →
      ¬ IsChild (builtNodes f) n m) :
    ⟨(nodeAt (builtNodes f) n).nfreq, BitVec.ofNat 9 n⟩ ∈ (mergeLoop j (seed f)).queue := by
  have hk := presentSymbols_length_le f
  have hidx : (BitVec.ofNat 9 n).toNat = n := nodeIdx_toNat (by omega)
  rw [mem_mergeLoop_queue_iff_mergeAll hj]
  simp only [hidx]
  exact ⟨hn, trivial, hchild⟩

end

/-- Settles O22: after `j` merges the invariant of the merges counts the queue, and says which nodes it holds. -/
theorem queueAfterMerges : Obligations.QueueAfterMerges := fun f j hj =>
  ⟨mergeLoop_seed_nodes_length hj, mergeLoop_seed_queue_length hj, mergeLoop_prefix_mergeAll (Nat.le_of_succ_le hj),
    (mergeLoop_merging_seed f j).nodup_queue, mem_mergeLoop_queue_iff hj⟩

/-- Settles O19: the seeded queue is the queue after no merge, when no node is a child. -/
theorem buildSeedsInSymbolOrder : Obligations.BuildSeedsInSymbolOrder := by
  intro s h
  refine ⟨seed_queue_length s.freq, fun j hj => ?_, _, exec_build_of_nonempty h, fun j hj => nodeAt_builtNodes_leaf s.freq hj⟩
  have := mem_mergeLoop_queue_of_not_child (f := s.freq) (j := 0) (n := j) (by omega) hj fun m hkm hm => by omega
  rwa [nodeAt_builtNodes_leaf s.freq hj, mergeLoop] at this

/-- The merge that makes node `k + j`: its children are the first two of the queue's order among the nodes that were not yet
children, and its own entry takes their place (42_build R136). -/
theorem exists_merge {f : FreqTable} {j : Nat} (hj : j + 1 < (presentSymbols f).length) :
    ∃ x y q, (mergeLoop j (seed f)).queue.Perm (x :: y :: q) ∧ x.before y = true ∧ (∀ e ∈ q, y.before e = true) ∧
      nodeAt (builtNodes f) ((presentSymbols f).length + j) = mergedNode x y ∧
      (mergeLoop (j + 1) (seed f)).queue =
        ⟨x.freq + y.freq, BitVec.ofNat 9 ((presentSymbols f).length + j)⟩ :: q := by
  have hqueue := mergeLoop_seed_queue_length (f := f) (j := j) (by omega)
  have hlen := mergeLoop_seed_nodes_length (f := f) (j := j) (by omega)
  have hk := presentSymbols_length_le f
  obtain ⟨x, q1, y, q2, hx, hy, -⟩ := exists_pqPopMin_two (by omega : 2 ≤ (mergeLoop j (seed f)).queue.length)
  obtain ⟨hperm, hxy, hleast⟩ := pqPopMin_two_before (mergeLoop_merging_seed f j).nodup_queue hx hy
  have hnext : mergeLoop (j + 1) (seed f) = Builder.add ⟨q2, (mergeLoop j (seed f)).nodes⟩ (mergedNode x y) := by
    rw [mergeLoop_add, mergeLoop_succ hx hy, mergeLoop]
  refine ⟨x, y, q2, hperm, hxy, hleast, ?_, ?_⟩
  · rw [← nodeAt_mergeLoop hj.le (by rw [hnext]; simp; omega), hnext, ← hlen]
    exact nodeAt_nodeTableOf_length (l := (mergeLoop j (seed f)).nodes) (by omega) _
  · rw [hnext, ← hlen]
    rfl

/-- The queue's order on entries is the order on their nodes. -/
theorem nodeBefore_of_before {t : NodeTable} {a b : QEntry} (ha : a.freq = (nodeAt t a.idx.toNat).nfreq)
    (hb : b.freq = (nodeAt t b.idx.toNat).nfreq) (h : a.before b = true) : NodeBefore t a.idx.toNat b.idx.toNat := by
  rw [NodeBefore, ← ha, ← hb]
  exact QEntry.before_iff.mp h

/-- Settles O21: node `n` is made by a merge whose queue held the nodes below `n` that were not yet children. -/
theorem buildMergesTwoLeast : Obligations.BuildMergesTwoLeast := by
  intro s h
  refine ⟨_, exec_build_of_nonempty h, fun n hkn hn => ?_⟩
  obtain ⟨-, -, hnnodes, -⟩ := (builtNodes_treeShape h).tree_reg
  have hk := presentSymbols_length_le s.freq
  obtain ⟨j, rfl⟩ := Nat.exists_eq_add_of_le hkn
  have hj : j + 1 < (presentSymbols s.freq).length := by
    rw [hnnodes] at hn
    omega
  obtain ⟨x, y, q, hperm, hxy, hleast, hnode, -⟩ := exists_merge hj
  have hentry : ∀ e ∈ x :: y :: q, e.freq = (nodeAt (builtNodes s.freq) e.idx.toNat).nfreq :=
    fun e he => freq_of_mem_mergeLoop_queue (by omega) (hperm.mem_iff.mpr he)
  simp only [hnode]
  refine ⟨nodeBefore_of_before (hentry x (by simp)) (hentry y (by simp)) hxy, fun c hc hcx hcy hchild => ?_⟩
  have hidx : (BitVec.ofNat 9 c).toNat = c := nodeIdx_toNat (by omega)
  have hmem := hperm.mem_iff.mp (mem_mergeLoop_queue_of_not_child (by omega) hc hchild)
  rw [List.mem_cons, List.mem_cons] at hmem
  rcases hmem with heq | heq | hmem
  · exact absurd (by rw [← heq, mergedNode, hidx]) hcx
  · exact absurd (by rw [← heq, mergedNode, hidx]) hcy
  · have := nodeBefore_of_before (hentry y (by simp)) (hentry _ (by simp [hmem])) (hleast _ hmem)
    rwa [hidx] at this

end Sys2Proof.Machine
end

section
/-! PROOF. Optimality (42_build R144), the part about trees alone. A tree's weighted path length depends on its leaves' weights
and depths. Its two deepest sibling leaves can be given the two least weights without making it longer, and merging them then
leaves a tree for the merged weights that is shorter by their sum: the exchange argument of Huffman's theorem. -/

namespace Sys2Proof.Machine

/-- Each leaf's weight and depth, left to right, for a tree whose root is at depth `d`. -/
def WeightTree.pairs : WeightTree → Nat → List (Nat × Nat)
  | .leaf w, d => [(w, d)]
  | .fork l r, d => l.pairs (d + 1) ++ r.pairs (d + 1)

/-- The sum of weight times depth over such a list. -/
def pathLength (P : List (Nat × Nat)) : Nat := (P.map fun p => p.1 * p.2).sum

@[simp] theorem pathLength_nil : pathLength [] = 0 := rfl

@[simp] theorem pathLength_cons (p : Nat × Nat) (P : List (Nat × Nat)) :
    pathLength (p :: P) = p.1 * p.2 + pathLength P := rfl

@[simp] theorem pathLength_append (P Q : List (Nat × Nat)) : pathLength (P ++ Q) = pathLength P + pathLength Q := by
  simp [pathLength]

theorem WeightTree.map_fst_pairs (w : WeightTree) (d : Nat) : (w.pairs d).map Prod.fst = w.leaves := by
  induction w generalizing d with
  | leaf w => rfl
  | fork l r ihl ihr => simp [pairs, leaves, ihl, ihr]

theorem WeightTree.pathLength_pairs (w : WeightTree) (d : Nat) : pathLength (w.pairs d) = w.cost d := by
  induction w generalizing d with
  | leaf w => simp [pairs, cost]
  | fork l r ihl ihr => simp [pairs, cost, ihl, ihr]

/-- A tree put one level deeper costs its weight more. -/
theorem WeightTree.cost_succ (w : WeightTree) (d : Nat) : w.cost (d + 1) = w.cost d + w.leaves.sum := by
  induction w generalizing d with
  | leaf w => simp [cost, leaves, Nat.mul_succ]
  | fork l r ihl ihr => simp only [cost, leaves, ihl, ihr, List.sum_append]; omega

theorem WeightTree.le_depth {w : WeightTree} {d : Nat} {p : Nat × Nat} (h : p ∈ w.pairs d) : d ≤ p.2 := by
  induction w generalizing d with
  | leaf w => simp [pairs] at h; simp [h]
  | fork l r ihl ihr => exact (List.mem_append.mp h).elim (fun h => Nat.le_of_succ_le (ihl h)) fun h => Nat.le_of_succ_le (ihr h)

/-- A tree's leaves can be given any weights. -/
theorem WeightTree.exists_relabel (w : WeightTree) {d : Nat} {P : List (Nat × Nat)}
    (h : P.map Prod.snd = (w.pairs d).map Prod.snd) : ∃ w' : WeightTree, w'.pairs d = P := by
  induction w generalizing d P with
  | leaf w =>
    obtain ⟨⟨a, e⟩, rfl, he⟩ := List.map_eq_singleton_iff.mp h
    exact ⟨.leaf a, by rw [pairs, show e = d from he]⟩
  | fork l r ihl ihr =>
    rw [pairs, List.map_append] at h
    obtain ⟨Pl, Pr, rfl, hl, hr⟩ := List.map_eq_append_iff.mp h
    obtain ⟨l', rfl⟩ := ihl hl
    obtain ⟨r', rfl⟩ := ihr hr
    exact ⟨.fork l' r', rfl⟩

/-! The two deepest sibling leaves. -/

/-- The tree has two sibling leaves at depth `m + 1`, no leaf is deeper, and with the two merged into their parent it is a
tree again. -/
def WeightTree.DeepestSiblings (w : WeightTree) (d m : Nat) : Prop :=
  (∀ p ∈ w.pairs d, p.2 ≤ m + 1) ∧ ∃ A a b B, w.pairs d = A ++ (a, m + 1) :: (b, m + 1) :: B ∧
    ∃ w' : WeightTree, w'.pairs d = A ++ (a + b, m) :: B

section
variable {l r : WeightTree} {d m : Nat}

theorem WeightTree.DeepestSiblings.fork_left (h : l.DeepestSiblings (d + 1) m) (hr : ∀ p ∈ r.pairs (d + 1), p.2 ≤ m + 1) :
    (fork l r).DeepestSiblings d m := by
  obtain ⟨hmax, A, a, b, B, hl, l', hl'⟩ := h
  refine ⟨fun p hp => (List.mem_append.mp hp).elim (hmax p) (hr p), A, a, b, B ++ r.pairs (d + 1), ?_, .fork l' r, ?_⟩
  · simp [pairs, hl]
  · simp [pairs, hl']

theorem WeightTree.DeepestSiblings.fork_right (h : r.DeepestSiblings (d + 1) m) (hl : ∀ p ∈ l.pairs (d + 1), p.2 ≤ m + 1) :
    (fork l r).DeepestSiblings d m := by
  obtain ⟨hmax, A, a, b, B, hr, r', hr'⟩ := h
  refine ⟨fun p hp => (List.mem_append.mp hp).elim (hl p) (hmax p), l.pairs (d + 1) ++ A, a, b, B, ?_, .fork l r', ?_⟩
  · simp [pairs, hr]
  · simp [pairs, hr']

theorem WeightTree.DeepestSiblings.le_depth {w : WeightTree} (h : w.DeepestSiblings d m) : d ≤ m + 1 := by
  obtain ⟨-, A, a, b, B, hw, -⟩ := h
  exact WeightTree.le_depth (w := w) (p := (a, m + 1)) (by simp [hw])

end

/-- Every tree that is not one leaf has two deepest sibling leaves: those of its deeper subtree, or its two leaves. -/
theorem WeightTree.exists_deepestSiblings (w : WeightTree) (d : Nat) :
    (∃ a, w = .leaf a) ∨ ∃ m, w.DeepestSiblings d m := by
  induction w generalizing d with
  | leaf a => exact .inl ⟨a, rfl⟩
  | fork l r ihl ihr =>
    right
    rcases ihl (d + 1) with ⟨a, rfl⟩ | ⟨m, hl⟩ <;> rcases ihr (d + 1) with ⟨b, rfl⟩ | ⟨m', hr⟩
    · exact ⟨d, by simp [pairs], [], a, b, [], rfl, .leaf (a + b), rfl⟩
    · exact ⟨m', hr.fork_right (by simpa [pairs] using hr.le_depth)⟩
    · exact ⟨m, hl.fork_left (by simpa [pairs] using hl.le_depth)⟩
    · rcases le_total m m' with hm | hm
      · exact ⟨m', hr.fork_right fun p hp => (hl.1 p hp).trans (by omega)⟩
      · exact ⟨m, hl.fork_left fun p hp => (hr.1 p hp).trans (by omega)⟩

/-! The exchange. -/

/-- The least weight `x` changes places with the weight `a` of a deepest leaf. -/
theorem exists_exchange {a x m : Nat} {P : List (Nat × Nat)} {rest : List Nat} (hm : ∀ p ∈ P, p.2 ≤ m)
    (h : (a :: P.map Prod.fst).Perm (x :: rest)) (hx : ∀ r ∈ rest, x ≤ r) :
    ∃ P' : List (Nat × Nat), P'.map Prod.snd = P.map Prod.snd ∧ (P'.map Prod.fst).Perm rest ∧
      pathLength P' + x * m ≤ pathLength P + a * m := by
  by_cases hax : a = x
  · subst hax
    exact ⟨P, rfl, h.cons_inv, le_rfl⟩
  · have hxP : x ∈ P.map Prod.fst :=
      (List.mem_cons.mp (h.mem_iff.mpr List.mem_cons_self)).resolve_left (Ne.symm hax)
    have harest : a ∈ rest := (List.mem_cons.mp (h.mem_iff.mp List.mem_cons_self)).resolve_left hax
    obtain ⟨⟨x, e⟩, he, rfl⟩ := List.mem_map.mp hxP
    obtain ⟨P₁, P₂, rfl⟩ := List.append_of_mem he
    refine ⟨P₁ ++ (a, e) :: P₂, by simp, ?_, ?_⟩
    · simp only [List.map_append, List.map_cons] at h ⊢
      refine List.perm_middle.trans (List.Perm.cons_inv (a := x) ?_)
      exact (List.Perm.swap _ _ _).trans ((List.perm_middle.symm.cons a).trans h)
    · have := mul_add_mul_le_mul_add_mul (hx a harest) (hm _ he)
      simp only [pathLength_append, pathLength_cons] at this ⊢
      omega

/-- The two least weights change places with those of two deepest leaves. -/
theorem exists_exchange_two {a b x y m : Nat} {P : List (Nat × Nat)} {rest : List Nat} (hm : ∀ p ∈ P, p.2 ≤ m)
    (h : (a :: b :: P.map Prod.fst).Perm (x :: y :: rest)) (hxy : x ≤ y) (hy : ∀ r ∈ rest, y ≤ r) :
    ∃ P' : List (Nat × Nat), P'.map Prod.snd = P.map Prod.snd ∧ (P'.map Prod.fst).Perm rest ∧
      pathLength P' + (x + y) * m ≤ pathLength P + (a + b) * m := by
  obtain ⟨Q, hsnd, hfst, hle⟩ := exists_exchange (P := (b, m) :: P) (List.forall_mem_cons.mpr ⟨le_rfl, hm⟩) h
    (List.forall_mem_cons.mpr ⟨hxy, fun r hr => hxy.trans (hy r hr)⟩)
  obtain ⟨⟨b', m'⟩, P', rfl, hm', hsnd'⟩ := List.map_eq_cons_iff.mp hsnd
  obtain rfl : m' = m := hm'
  have hmP' : ∀ p ∈ P', p.2 ≤ m' := fun p hp => by
    obtain ⟨q, hq, hqp⟩ := List.mem_map.mp (hsnd' ▸ List.mem_map_of_mem (f := Prod.snd) hp)
    exact hqp ▸ hm q hq
  obtain ⟨P'', hsnd'', hfst'', hle'⟩ := exists_exchange (a := b') hmP' hfst hy
  refine ⟨P'', hsnd''.trans hsnd', hfst'', ?_⟩
  simp only [pathLength_cons] at hle
  rw [Nat.add_mul, Nat.add_mul]
  omega

/-- For every tree with the weights `x`, `y` and `rest`, `x` and `y` the two least, there is a tree with the merged weight
`x + y` and `rest` whose path length is shorter by `x + y` or more (42_build R144). -/
theorem WeightTree.exists_merged {w : WeightTree} {x y : Nat} {rest : List Nat} (h : w.leaves.Perm (x :: y :: rest))
    (hxy : x ≤ y) (hy : ∀ r ∈ rest, y ≤ r) :
    ∃ w' : WeightTree, w'.leaves.Perm ((x + y) :: rest) ∧ w'.cost 0 + (x + y) ≤ w.cost 0 := by
  rcases w.exists_deepestSiblings 0 with ⟨a, rfl⟩ | ⟨m, hmax, A, a, b, B, hw, w₀, hw₀⟩
  · simpa [leaves] using h.length_eq
  · rw [hw] at hmax
    have hfst : (a :: b :: (A ++ B).map Prod.fst).Perm (x :: y :: rest) := by
      rw [← map_fst_pairs w 0, hw, List.map_append] at h
      refine List.Perm.trans ?_ h
      simpa using (List.perm_middle.trans (List.perm_middle.cons a)).symm
    obtain ⟨P, hsnd, hrest, hle⟩ := exists_exchange_two (m := m + 1)
      (fun p hp => hmax p (by rcases List.mem_append.mp hp with hp | hp <;> simp [hp])) hfst hxy hy
    rw [List.map_append] at hsnd
    obtain ⟨A', B', rfl, hA, hB⟩ := List.map_eq_append_iff.mp hsnd
    obtain ⟨w', hw'⟩ := w₀.exists_relabel (d := 0) (P := A' ++ (x + y, m) :: B') (by simp [hw₀, hA, hB])
    refine ⟨w', ?_, ?_⟩
    · rw [← map_fst_pairs w' 0, hw', List.map_append, List.map_cons]
      exact List.perm_middle.trans ((by simpa using hrest : (A'.map Prod.fst ++ B'.map Prod.fst).Perm rest).cons _)
    · rw [← pathLength_pairs, ← pathLength_pairs, hw, hw']
      simp only [pathLength_append, pathLength_cons, Nat.add_mul, Nat.mul_add] at hle ⊢
      omega

end Sys2Proof.Machine
end

section
/-! PROOF. Optimality (42_build R144), the engine's part. The nodes below a node are a weighted tree; the codes that CODES
writes take at most its path length; and each merge of BUILD adds to the path lengths of the queue's trees what the exchange
argument allows, so the last tree is no longer than any other with the same leaves. -/

namespace Sys2Proof.Machine

/-! The weighted tree below a node. -/

/-- The nodes below node `n` as a weighted tree. Children at smaller indices are followed, which in a tree of 10_state R40
item 4 all are. -/
def weightTree (t : NodeTable) (n : Nat) : WeightTree :=
  if _h : (nodeAt t n).leaf = false ∧ (nodeAt t n).left.toNat < n ∧ (nodeAt t n).right.toNat < n then
    .fork (weightTree t (nodeAt t n).left.toNat) (weightTree t (nodeAt t n).right.toNat)
  else .leaf (nodeAt t n).nfreq.toNat
termination_by n
decreasing_by all_goals omega

section
variable {tr : Tree} {t : NodeTable} {k n : Nat}

theorem TreeShape.weightTree_leaf (h : TreeShape tr t k) (hn : n < k) :
    weightTree t n = .leaf (nodeAt t n).nfreq.toNat := by
  obtain ⟨-, hl, -⟩ := h.leaves n hn
  rw [weightTree, dif_neg (by simp [hl])]

theorem TreeShape.weightTree_internal (h : TreeShape tr t k) (hkn : k ≤ n) (hn : n < 2 * k - 1) :
    weightTree t n = .fork (weightTree t (nodeAt t n).left.toNat) (weightTree t (nodeAt t n).right.toNat) := by
  obtain ⟨-, hl, -, hlt, hrt, -⟩ := h.internal n hkn hn
  rw [weightTree, dif_pos ⟨hl, hlt, hrt⟩]

/-- The weights below a node add up to its frequency (42_build R142). -/
theorem TreeShape.weightTree_sum (h : TreeShape tr t k) (n : Nat) (hn : n < 2 * k - 1) :
    (weightTree t n).leaves.sum = (nodeAt t n).nfreq.toNat := by
  rcases Nat.lt_or_ge n k with hnk | hnk
  · simp [h.weightTree_leaf hnk, WeightTree.leaves]
  · have hl := h.child_lt hnk hn (.inl rfl)
    have hr := h.child_lt hnk hn (.inr rfl)
    rw [h.weightTree_internal hnk hn, WeightTree.leaves, List.sum_append, h.weightTree_sum _ (hl.trans hn),
      h.weightTree_sum _ (hr.trans hn), h.nfreq_eq hnk hn]
termination_by n

/-- A merge makes the path lengths of its two trees longer by their weights. -/
theorem TreeShape.weightTree_cost (h : TreeShape tr t k) (hkn : k ≤ n) (hn : n < 2 * k - 1) :
    (weightTree t n).cost 0 = (weightTree t (nodeAt t n).left.toNat).cost 0 +
      (weightTree t (nodeAt t n).right.toNat).cost 0 + (nodeAt t n).nfreq.toNat := by
  have hl := h.child_lt hkn hn (.inl rfl)
  have hr := h.child_lt hkn hn (.inr rfl)
  rw [h.weightTree_internal hkn hn, WeightTree.cost, WeightTree.cost_succ, WeightTree.cost_succ,
    h.weightTree_sum _ (hl.trans hn), h.weightTree_sum _ (hr.trans hn), h.nfreq_eq hkn hn]
  omega

end

/-! The codes take the path length. -/

theorem encodedBits_empty (f : FreqTable) : encodedBits f CodeTable.empty = 0 := by
  simp [encodedBits, CodeEntry.zero]

/-- A code costs its length for each of its symbol's occurrences, less what the symbol cost before. -/
theorem encodedBits_setCode_le (f : FreqTable) (ct : CodeTable) (x : Byte) (c : Bits) :
    encodedBits f (setCode ct x c) ≤ encodedBits f ct + (symGet f x).toNat * c.length := by
  have hpoint : ∀ y ∈ allSymbols, (symGet f y).toNat * (symGet (setCode ct x c) y).len.toNat ≤
      (symGet f y).toNat * (symGet ct y).len.toNat + if y = x then (symGet f x).toNat * c.length else 0 := by
    intro y _
    rw [setCode, symGet_symSet]
    split_ifs with hy
    · subst hy
      have hlen : (codeEntryOf c).len.toNat ≤ c.length := Nat.mod_le _ _
      exact (Nat.mul_le_mul_left _ hlen).trans (Nat.le_add_left _ _)
    · exact Nat.le_add_right _ _
  refine (List.sum_le_sum hpoint).trans ?_
  rw [List.sum_map_add, List.sum_map_eq_nsmul_single x _ fun y hy _ => if_neg hy,
    List.count_eq_one_of_mem allSymbols_nodup (mem_allSymbols x), one_nsmul, if_pos rfl]
  exact le_rfl

/-- CODES' walk from a node of the tree succeeds, its depth at most the number of internal nodes (43_codes R165), and the codes
it writes take no more bits than the path length below the node. -/
theorem TreeShape.walk_bits_le {tr : Tree} {t : NodeTable} {k : Nat} {f : FreqTable} (h : TreeShape tr t k)
    (hf : ∀ n, n < k → (symGet f (nodeAt t n).sym).toNat = (nodeAt t n).nfreq.toNat) {fuel : Nat} {n : NodeIdx}
    (hn : n.toNat < 2 * k - 1) (hfuel : n.toNat + 1 - k < fuel) (c : Bits) (ct : CodeTable) :
    ∃ ct', walk t fuel n c ct = some ct' ∧
      encodedBits f ct' ≤ encodedBits f ct + (weightTree t n.toNat).cost c.length := by
  have hk := h.leaf_count
  induction fuel generalizing n c ct with
  | zero => omega
  | succ fuel ih =>
    rcases Nat.lt_or_ge n.toNat k with hnk | hnk
    · obtain ⟨-, hl, -⟩ := h.leaves _ hnk
      refine ⟨_, walk_leaf (by omega) hl fuel c ct, ?_⟩
      rw [h.weightTree_leaf hnk, WeightTree.cost, ← hf _ hnk]
      exact encodedBits_setCode_le f ct _ c
    · obtain ⟨-, hl, -, hlt, hrt, -⟩ := h.internal _ hnk hn
      obtain ⟨ct₁, hwalk₁, hle₁⟩ := ih (hlt.trans hn) (by omega) (c ++ [false]) ct
      obtain ⟨ct₂, hwalk₂, hle₂⟩ := ih (hrt.trans hn) (by omega) (c ++ [true]) ct₁
      refine ⟨ct₂, by rw [walk_fork (by omega) hl, hwalk₁, Option.bind_some, hwalk₂], ?_⟩
      rw [h.weightTree_internal hnk hn, WeightTree.cost]
      simp only [List.length_append, List.length_singleton] at hle₁ hle₂
      omega

/-! The merges. -/

/-- The path lengths of the trees of a queue's entries. -/
def queueCost (t : NodeTable) (q : List QEntry) : Nat := (q.map fun e => (weightTree t e.idx.toNat).cost 0).sum

@[simp] theorem queueCost_cons (t : NodeTable) (e : QEntry) (q : List QEntry) :
    queueCost t (e :: q) = (weightTree t e.idx.toNat).cost 0 + queueCost t q := rfl

theorem queueCost_perm (t : NodeTable) {q q' : List QEntry} (h : q.Perm q') : queueCost t q = queueCost t q' :=
  (h.map _).sum_eq

/-- An entry costs no more than the queue it is in. -/
theorem cost_le_queueCost (t : NodeTable) {q : List QEntry} {e : QEntry} (he : e ∈ q) :
    (weightTree t e.idx.toNat).cost 0 ≤ queueCost t q :=
  List.le_sum_of_mem (List.mem_map_of_mem he)

/-- The frequencies in a queue. -/
def queueFreqs (q : List QEntry) : List Nat := q.map fun e => e.freq.toNat

@[simp] theorem queueFreqs_cons (e : QEntry) (q : List QEntry) : queueFreqs (e :: q) = e.freq.toNat :: queueFreqs q := rfl

theorem QEntry.freq_le_of_before {a b : QEntry} (h : a.before b = true) : a.freq.toNat ≤ b.freq.toNat := by
  rcases QEntry.before_iff.mp h with h | ⟨h, -⟩ <;> omega

/-- The exchange argument on a queue whose first two entries are its two least. -/
theorem WeightTree.exists_merged_queue {w : WeightTree} {x y : QEntry} {q : List QEntry}
    (hw : w.leaves.Perm (queueFreqs (x :: y :: q))) (hxy : x.before y = true) (hleast : ∀ e ∈ q, y.before e = true) :
    ∃ w' : WeightTree, w'.leaves.Perm ((x.freq.toNat + y.freq.toNat) :: queueFreqs q) ∧
      w'.cost 0 + (x.freq.toNat + y.freq.toNat) ≤ w.cost 0 := by
  refine exists_merged hw (QEntry.freq_le_of_before hxy) fun r hr => ?_
  obtain ⟨e, he, rfl⟩ := List.mem_map.mp hr
  exact QEntry.freq_le_of_before (hleast e he)

/-- The frequency of node `n` as a number. -/
def nodeFreq (t : NodeTable) (n : Nat) : Nat := (nodeAt t n).nfreq.toNat

theorem leafNode_nfreq_toNat (x : Byte) (c : Word) : (leafNode x c).nfreq.toNat = c.toNat := by
  have := c.isLt
  simp only [leafNode, BitVec.toNat_setWidth]
  omega

section
variable {f : FreqTable}

/-- The seeded queue holds the table's counts (42_build R133). -/
theorem seed_queueFreqs (hne : presentSymbols f ≠ []) :
    (queueFreqs (seed f).queue).Perm ((presentSymbols f).map fun x => (symGet f x).toNat) := by
  have hidx : ((seed f).queue.map fun e => e.idx.toNat).Perm (List.range (presentSymbols f).length) := by
    have hcover := (seed_merging f).cover
    have hnone : (seed f).nodes.flatMap Node.children = [] := by simp [seed_nodes, List.flatMap_map]
    rwa [Builder.indices, hnone, List.append_nil, seed_nodes_length] at hcover
  have hfreq : ∀ e ∈ (seed f).queue, e.freq.toNat = nodeFreq (builtNodes f) e.idx.toNat := fun e he =>
    congrArg BitVec.toNat (freq_of_mem_mergeLoop_queue (j := 0) (List.length_pos_iff.mpr hne) he)
  have hcounts : (List.range (presentSymbols f).length).map (nodeFreq (builtNodes f)) =
      (presentSymbols f).map fun x => (symGet f x).toNat := by
    refine List.ext_getElem (by simp) fun n hn _ => ?_
    rw [List.length_map, List.length_range] at hn
    simp only [List.getElem_map, List.getElem_range, nodeFreq, nodeAt_builtNodes_leaf f hn, leafNode_nfreq_toNat]
  have hq : queueFreqs (seed f).queue = ((seed f).queue.map fun e => e.idx.toNat).map (nodeFreq (builtNodes f)) := by
    rw [List.map_map]
    exact List.map_congr_left hfreq
  rw [hq, ← hcounts]
  exact hidx.map _

/-- The seeded queue's trees are leaves. -/
theorem queueCost_seed (hne : presentSymbols f ≠ []) :
    queueCost (builtNodes f) (seed f).queue = 0 := by
  refine List.sum_eq_zero fun c hc => ?_
  obtain ⟨e, he, rfl⟩ := List.mem_map.mp hc
  obtain ⟨hlt, -⟩ := (mem_mergeLoop_queue_iff (j := 0) (List.length_pos_iff.mpr hne) e).mp he
  rw [(builtNodes_treeShape hne).weightTree_leaf hlt, WeightTree.cost, Nat.mul_zero]

/-- After `j` merges the finished tree is no longer than the queue's trees below the best tree over the queue's
frequencies: each merge takes the two least (42_build R136), so the exchange argument applies to it. -/
theorem build_cost_le_of_merges (hne : presentSymbols f ≠ []) (j : Nat) (hj : j < (presentSymbols f).length)
    (w : WeightTree) (hw : w.leaves.Perm (queueFreqs (mergeLoop j (seed f)).queue)) :
    (weightTree (builtNodes f) (2 * (presentSymbols f).length - 2)).cost 0 ≤
      queueCost (builtNodes f) (mergeLoop j (seed f)).queue + w.cost 0 := by
  have hshape := builtNodes_treeShape hne
  have hk := presentSymbols_length_le f
  rcases Nat.lt_or_ge (j + 1) (presentSymbols f).length with hlt | hge
  · obtain ⟨x, y, q, hperm, hxy, hleast, hnode, hnext⟩ := exists_merge hlt
    have hfreq : ∀ e ∈ x :: y :: q, _ := fun e he => freq_of_mem_mergeLoop_queue hj (hperm.mem_iff.mpr he)
    have hcost := hshape.weightTree_cost (Nat.le_add_right _ j) (by omega)
    have hsum := hshape.nfreq_eq (Nat.le_add_right _ j) (by omega)
    simp only [hnode, mergedNode] at hcost hsum
    rw [← hfreq x (by simp), ← hfreq y (by simp)] at hsum
    obtain ⟨w', hw', hle⟩ := WeightTree.exists_merged_queue (hw.trans (hperm.map _)) hxy hleast
    have hrest := build_cost_le_of_merges hne (j + 1) hlt w' (by rw [hnext, queueFreqs_cons, hsum]; exact hw')
    rw [hnext, queueCost_cons, nodeIdx_toNat (by omega), hcost, hsum] at hrest
    rw [queueCost_perm _ hperm, queueCost_cons, queueCost_cons]
    omega
  · have hroot := mem_mergeLoop_queue_of_not_child hj (n := 2 * (presentSymbols f).length - 2) (by omega)
      fun m hkm hm => hshape.root_no_child m hkm (by omega)
    have := cost_le_queueCost (builtNodes f) hroot
    rw [nodeIdx_toNat (by omega)] at this
    omega
termination_by (presentSymbols f).length - j

/-- BUILD's tree has the least weighted path length for the table's counts (42_build R144). -/
theorem build_cost_le (hne : presentSymbols f ≠ []) {w : WeightTree}
    (hw : w.leaves.Perm ((presentSymbols f).map fun x => (symGet f x).toNat)) :
    (weightTree (builtNodes f) (2 * (presentSymbols f).length - 2)).cost 0 ≤ w.cost 0 := by
  have := build_cost_le_of_merges hne 0 (List.length_pos_iff.mpr hne) w (hw.trans (seed_queueFreqs hne).symm)
  rwa [mergeLoop, queueCost_seed hne, Nat.zero_add] at this

end

/-- CODES over a tree of two or more leaves goes on, and its codes take no more bits than the tree's path length
(43_codes R160, R165). -/
theorem exec_codes_bits_le {s : State} {k : Nat} {f : FreqTable} (hk : 2 ≤ k) (h : TreeShape s.tree s.node k)
    (hf : ∀ n, n < k → (symGet f (nodeAt s.node n).sym).toNat = (nodeAt s.node n).nfreq.toNat) :
    ∃ u, exec .codes s = .next u ∧ encodedBits f u.code ≤ (weightTree s.node (2 * k - 2)).cost 0 := by
  have hk256 := h.leaf_count
  obtain ⟨hv, -, -, hroot⟩ := h.tree_reg
  have hrl := (h.leaf_eq_false_iff (n := s.tree.root.toNat) (by omega)).mpr (by omega)
  obtain ⟨ct, hwalk, hle⟩ := h.walk_bits_le hf (fuel := 256) (n := s.tree.root) (by omega) (by omega) [] CodeTable.empty
  have hcodes : codesOf s.node s.tree.root = some ct := by
    simp [codesOf, nodeGet_eq_some s.node s.tree.root (by omega), hrl, hwalk]
  refine ⟨finish (opcodeOf .codes) .ok 0 { s with code := ct }, by simp [exec, execCodes, hv, hcodes], ?_⟩
  rwa [encodedBits_empty, Nat.zero_add, hroot] at hle

/-- Settles O25: the codes take at most the path length of BUILD's tree, and no tree's is less. -/
theorem buildIsOptimal : Obligations.BuildIsOptimal := by
  intro s h
  have hne : presentSymbols s.freq ≠ [] := List.ne_nil_of_length_pos (by omega)
  obtain ⟨t, ht, htree, hnode⟩ : ∃ t, exec .build s = .next t ∧
      t.tree = builtTree s.freq ∧
      t.node = builtNodes s.freq := ⟨_, exec_build_of_nonempty hne, rfl, rfl⟩
  have hshape : TreeShape t.tree t.node (presentSymbols s.freq).length := by
    rw [htree, hnode]
    exact builtNodes_treeShape hne
  obtain ⟨u, hu, hle⟩ := exec_codes_bits_le (f := s.freq) h hshape fun n hn => by
    rw [hnode, nodeAt_builtNodes_leaf s.freq hn, leafNode_nfreq_toNat]
    rfl
  refine ⟨t, u, ht, hu, fun w hw => hle.trans ?_⟩
  rw [hnode]
  exact build_cost_le hne hw

end Sys2Proof.Machine
end

section
/-! PROOF. CODES (43_codes). Over a tree of 10_state R40 item 4 the walk succeeds, because it goes down through the indices of
the internal nodes, and it writes each leaf's path as the code of the leaf's symbol, but "0" for the empty path. What R166
and R167 say of the table are facts about the tree's paths. -/

namespace Sys2Proof.Machine

/-! The command. -/

/-- CODES' whole effect with no tree (43_codes R164). -/
theorem exec_codes_of_noTree {s : State} (hv : s.tree.valid = false) :
    exec .codes s =
      .next { s with code := CodeTable.empty, status := ⟨.ok, s.status.sticky, 0x04#8⟩, errInfo := 0#32 } := by
  simp only [exec, execCodes, hv]
  rfl

/-- CODES' whole effect where the tree has a table (43_codes R160). -/
theorem exec_codes_of_codesOf {s : State} {ct : CodeTable} (hv : s.tree.valid = true)
    (hct : codesOf s.node s.tree.root = some ct) :
    exec .codes s = .next { s with code := ct, status := ⟨.ok, s.status.sticky, 0x04#8⟩, errInfo := 0#32 } := by
  simp only [exec, execCodes, hv, hct]
  rfl

/-- Settles O26: CODES does not look at the nodes. -/
theorem codesWithoutTree : Obligations.CodesWithoutTree := fun _ hv =>
  ⟨exec_codes_of_noTree hv, symGet_code_empty⟩

/-- A step that is not BUILD, CLEAR or reset leaves the tree and its nodes. -/
theorem step_keeps_tree {s t : State} (hs : step s = .next t)
    (hp : ∀ rest, s.pending ≠ .reset :: rest ∧ s.pending ≠ .write 0x00000000#32 (encode .build) :: rest ∧
      s.pending ≠ .write 0x00000000#32 (encode .clear) :: rest) : t.tree = s.tree ∧ t.node = s.node := by
  rcases step_cases hs with ⟨-, rfl⟩ | ⟨x, rest, hpend, hx⟩
  · exact ⟨rfl, rfl⟩
  obtain ⟨hreset, hbuild, hclear⟩ := hp rest
  rw [hpend] at hreset hbuild hclear
  rcases hx with ⟨rfl, -⟩ | ⟨a, -, rfl⟩ | ⟨a, w, rfl, hw⟩
  · exact absurd rfl hreset
  · obtain ⟨r, v, d, he⟩ := hostRead_eq a { s with pending := rest }
    rw [he]
    exact ⟨rfl, rfl⟩
  · rcases hw with rfl | ⟨g, s', -, -, hw, rfl⟩ | ⟨i, s', rfl, hi, hexec, rfl⟩ | ⟨-, rfl⟩
    · exact ⟨rfl, rfl⟩
    · rcases writeTarget_cases hw with ⟨-, -, rfl⟩ | ⟨-, -, rfl⟩ | ⟨x, -, rfl⟩ | ⟨i, -, rfl⟩ | ⟨i, -, rfl⟩ <;>
        exact ⟨rfl, rfl⟩
    · obtain rfl := (decodeIffEncoded w i).mp hi
      obtain ⟨-, -, -, -, -, -, -, htree, -⟩ := commandsWriteOnlyTheirRow i _ s' hexec
      exact htree (by rintro rfl; exact hclear rfl) (by rintro rfl; exact hbuild rfl)
    · exact ⟨rfl, rfl⟩

/-- Settles O31: the table is the one of TREE and NODE, or the empty one; and a step that is not BUILD, CLEAR or reset
leaves both. -/
theorem codesTwiceSameTable : Obligations.CodesTwiceSameTable := by
  refine ⟨fun s t h => ?_, fun s t => step_keeps_tree⟩
  rcases exec_codes_cases h with ⟨hv, rfl⟩ | ⟨hv, ct, hct, rfl⟩
  · exact ⟨rfl, fun s' htree _ => ⟨_, exec_codes_of_noTree (htree ▸ hv), rfl⟩⟩
  · refine ⟨rfl, fun s' htree hnode => ⟨_, exec_codes_of_codesOf (htree ▸ hv) (ct := ct) ?_, rfl⟩⟩
    rw [htree, hnode, hct]

/-! The walk. -/

/-- The walk leaves no code invalid that was valid. -/
theorem walk_keeps_valid {t : NodeTable} {fuel : Nat} {n : NodeIdx} {c : Bits} {ct ct' : CodeTable}
    (h : walk t fuel n c ct = some ct') {x : Byte} (hx : (symGet ct x).valid = true) : (symGet ct' x).valid = true := by
  rcases walk_entry h x with he | ⟨p, -, -, he⟩ <;> rw [he]
  · exact hx
  · exact codeEntryOf_valid _

/-- The walk gives every leaf's symbol a code (43_codes R161). -/
theorem walk_valid_of_leafPath {t : NodeTable} {fuel : Nat} {n : NodeIdx} {c : Bits} {ct ct' : CodeTable}
    (h : walk t fuel n c ct = some ct') {p : Bits} {x : Byte} (hp : LeafPath t n.toNat p x) :
    (symGet ct' x).valid = true := by
  induction fuel generalizing n c ct ct' p with
  | zero => cases h
  | succ fuel ih =>
    obtain ⟨m, hm, hleaf, rfl⟩ := hp
    have hn : n.toNat < 511 := by
      by_contra hn
      simp [walk, nodeGet_eq_none t n hn] at h
    cases hl : (nodeAt t n.toNat).leaf with
    | true =>
      obtain rfl := follow_leaf hl hm
      rw [walk_leaf hn hl] at h
      cases h
      cases hm
      simp [setCode]
    | false =>
      rw [walk_fork hn hl] at h
      obtain ⟨ct₁, h₁, h₂⟩ := Option.bind_eq_some_iff.mp h
      cases p with
      | nil =>
        cases hm
        simp [hl] at hleaf
      | cons b p =>
        rw [follow_cons hl] at hm
        cases b with
        | false => exact walk_keeps_valid h₂ (ih h₁ ⟨m, hm, hleaf, rfl⟩)
        | true => exact ih h₂ ⟨m, hm, hleaf, rfl⟩

/-! Paths to the leaves of a tree. -/

section
variable {tr : Tree} {t : NodeTable} {k n : Nat} {p : Bits}

/-- A path has at most one bit for each internal node (43_codes R166), because it goes down through their indices. -/
theorem TreeShape.path_length_le (h : TreeShape tr t k) (hp : follow t (2 * k - 2) p = some n) :
    p.length + max n (k - 1) ≤ 2 * k - 2 := by
  have hk := h.leaf_count
  induction p using List.reverseRecOn generalizing n with
  | nil => cases hp; simp; omega
  | append_singleton p b ih =>
    obtain ⟨m, hm, ⟨hkm, hmlt⟩, hb⟩ := h.follow_snoc.mp hp
    have hnm := h.child_lt hkm hmlt (isChild_iff_exists_bit.mpr ⟨b, hb⟩)
    have := ih hm
    simp only [List.length_append, List.length_singleton]
    omega

/-- With two or more leaves no leaf is the root. -/
theorem path_to_leaf_ne_nil (hk : 2 ≤ k) (hn : n < k) (hp : follow t (2 * k - 2) p = some n) : p ≠ [] := by
  rintro rfl
  cases hp
  omega

/-- The ends of the paths to leaves are the tree's leaves. -/
theorem TreeShape.leafPath_iff (h : TreeShape tr t k) {x : Byte} :
    LeafPath t (2 * k - 2) p x ↔ ∃ n, n < k ∧ follow t (2 * k - 2) p = some n ∧ (nodeAt t n).sym = x := by
  constructor
  · rintro ⟨n, hn, hl, hx⟩
    refine ⟨n, ?_, hn, hx⟩
    by_contra hkn
    simp [(h.leaf_eq_false_iff (h.follow_lt hn)).mpr (not_lt.mp hkn)] at hl
  · rintro ⟨n, hnk, hn, hx⟩
    obtain ⟨-, hl, -⟩ := h.leaves n hnk
    exact ⟨n, hn, hl, hx⟩

/-- Different leaves have different symbols (42_build R133). -/
theorem TreeShape.eq_of_sym_eq (h : TreeShape tr t k) {m : Nat} (hm : m < k) (hn : n < k)
    (he : (nodeAt t m).sym = (nodeAt t n).sym) : m = n := by
  rcases Nat.lt_trichotomy m n with hlt | heq | hlt
  · exact absurd (congrArg BitVec.toNat he) (h.ascending m n hlt hn).ne
  · exact heq
  · exact absurd (congrArg BitVec.toNat he).symm (h.ascending n m hlt hm).ne

/-- Each infinite bit sequence leads from any node of the tree to a leaf (43_codes R167): both children of an internal node
are at smaller indices. -/
theorem TreeShape.exists_leaf_on_sequence (h : TreeShape tr t k) (n : Nat) (hn : n < 2 * k - 1) (f : Nat → Bool) :
    ∃ d m, m < k ∧ follow t n ((List.range d).map f) = some m := by
  rcases Nat.lt_or_ge n k with hnk | hkn
  · exact ⟨0, n, hnk, rfl⟩
  · have hlt := h.child_lt hkn hn (isChild_iff_exists_bit.mpr ⟨f 0, rfl⟩)
    obtain ⟨d, m, hm, hd⟩ := h.exists_leaf_on_sequence _ (hlt.trans hn) fun i => f (i + 1)
    refine ⟨d + 1, m, hm, ?_⟩
    rw [List.range_succ_eq_map, List.map_cons, follow_cons ((h.leaf_eq_false_iff hn).mpr hkn), List.map_map]
    exact hd
termination_by n

/-- The walk over a tree never runs out of fuel, because it goes down through the indices of the internal nodes (43_codes
R165). -/
theorem TreeShape.exists_walk (h : TreeShape tr t k) {fuel : Nat} {n : NodeIdx} (hn : n.toNat < 2 * k - 1)
    (hfuel : n.toNat + 1 - k < fuel) (c : Bits) (ct : CodeTable) : ∃ ct', walk t fuel n c ct = some ct' := by
  have hk := h.leaf_count
  induction fuel generalizing n c ct with
  | zero => omega
  | succ fuel ih =>
    cases hl : (nodeAt t n.toNat).leaf with
    | true => exact ⟨_, walk_leaf (by omega) hl fuel c ct⟩
    | false =>
      have hkn := (h.leaf_eq_false_iff hn).mp hl
      have hleft := h.child_lt hkn hn (.inl rfl)
      have hright := h.child_lt hkn hn (.inr rfl)
      obtain ⟨ct₁, h₁⟩ := ih (hleft.trans hn) (by omega) (c ++ [false]) ct
      obtain ⟨ct₂, h₂⟩ := ih (hright.trans hn) (by omega) (c ++ [true]) ct₁
      exact ⟨ct₂, by rw [walk_fork (by omega) hl, h₁, Option.bind_some, h₂]⟩

end

/-! The table of a tree. -/

/-- The code of the leaf at the end of path `p`: the path (43_codes R162), but "0" for the empty path (R163). -/
def pathCode (p : Bits) : Bits := if p = [] then [false] else p

@[simp] theorem pathCode_nil : pathCode [] = [false] := rfl

theorem pathCode_of_ne_nil {p : Bits} (h : p ≠ []) : pathCode p = p := if_neg h

/-- The table holds the codes of the leaves' paths from the root of a tree of `k` leaves, and no other code. -/
structure PathTable (t : NodeTable) (k : Nat) (ct : CodeTable) : Prop where
  leaf : ∀ {n p}, n < k → follow t (2 * k - 2) p = some n → symGet ct (nodeAt t n).sym = codeEntryOf (pathCode p)
  other : ∀ {x}, (∀ n, n < k → (nodeAt t n).sym ≠ x) → symGet ct x = CodeEntry.zero

section
variable {tr : Tree} {t : NodeTable} {k : Nat} {ct : CodeTable}

/-- A root that is a leaf has the code "0" (43_codes R163). -/
theorem TreeShape.codesOf_of_oneLeaf (h : TreeShape tr t 1) :
    codesOf t tr.root = some (setCode CodeTable.empty (nodeAt t 0).sym [false]) := by
  obtain ⟨-, -, -, hroot⟩ := h.tree_reg
  obtain ⟨-, hl, -⟩ := h.leaves 0 Nat.one_pos
  rw [codesOf, nodeGet_eq_some t tr.root (by omega), hroot]
  simp [hl]

/-- A root that is no leaf is walked (43_codes R162). -/
theorem TreeShape.exists_codesOf_walk (h : TreeShape tr t k) (hk : 2 ≤ k) :
    ∃ ct, codesOf t tr.root = some ct ∧ walk t 256 tr.root [] CodeTable.empty = some ct := by
  have hcount := h.leaf_count
  obtain ⟨-, -, -, hroot⟩ := h.tree_reg
  have hl : (nodeAt t tr.root.toNat).leaf = false := (h.leaf_eq_false_iff (by omega)).mpr (by omega)
  obtain ⟨ct, hwalk⟩ := h.exists_walk (fuel := 256) (n := tr.root) (by omega) (by omega) [] CodeTable.empty
  refine ⟨ct, ?_, hwalk⟩
  rw [codesOf, nodeGet_eq_some t tr.root (by omega)]
  simp [hl, hwalk]

/-- The walk writes each leaf's path (43_codes R161, R162): what it wrote for a leaf's symbol is the path to a leaf of that
symbol, and that is this leaf and this path. -/
theorem TreeShape.pathTable_of_walk (h : TreeShape tr t k) (hk : 2 ≤ k)
    (hwalk : walk t 256 tr.root [] CodeTable.empty = some ct) : PathTable t k ct := by
  obtain ⟨-, -, -, hroot⟩ := h.tree_reg
  refine ⟨fun {n p} hn hp => ?_, fun {x} hx => ?_⟩
  · have hvalid := walk_valid_of_leafPath hwalk (hroot ▸ h.leafPath_iff.mpr ⟨n, hn, hp, rfl⟩)
    rcases walk_entry hwalk (nodeAt t n).sym with he | ⟨q, -, hq, he⟩
    · rw [he, symGet_code_empty] at hvalid
      cases hvalid
    · obtain ⟨m, hm, hmq, hsym⟩ := h.leafPath_iff.mp (hroot ▸ hq)
      obtain rfl := h.eq_of_sym_eq hm hn hsym
      obtain rfl := (h.existsUnique_path m (by omega)).unique hp hmq
      rw [he, pathCode_of_ne_nil (path_to_leaf_ne_nil hk hn hp), List.nil_append]
  · rcases walk_entry hwalk x with he | ⟨q, -, hq, -⟩
    · rw [he, symGet_code_empty]
    · obtain ⟨m, hm, -, hsym⟩ := h.leafPath_iff.mp (hroot ▸ hq)
      exact absurd hsym (hx m hm)

theorem TreeShape.pathTable_of_oneLeaf (h : TreeShape tr t 1) :
    PathTable t 1 (setCode CodeTable.empty (nodeAt t 0).sym [false]) := by
  refine ⟨fun {n p} hn hp => ?_, fun {x} hx => ?_⟩
  · obtain rfl : n = 0 := by omega
    obtain rfl : p = [] := (h.existsUnique_path 0 (by omega)).unique hp rfl
    simp [setCode]
  · rw [setCode, symGet_symSet_ne _ _ (hx 0 Nat.one_pos).symm, symGet_code_empty]

/-- CODES' table over a tree is that of the leaves' paths (43_codes R161 to R163). -/
theorem TreeShape.exists_pathTable (h : TreeShape tr t k) : ∃ ct, codesOf t tr.root = some ct ∧ PathTable t k ct := by
  rcases Nat.lt_or_ge k 2 with hk | hk
  · obtain rfl : k = 1 := by have := h.leaf_count; omega
    exact ⟨_, h.codesOf_of_oneLeaf, h.pathTable_of_oneLeaf⟩
  · obtain ⟨ct, hct, hwalk⟩ := h.exists_codesOf_walk hk
    exact ⟨ct, hct, h.pathTable_of_walk hk hwalk⟩

/-- The symbols with a code are the leaves' (43_codes R167 (a)). -/
theorem PathTable.valid_iff (h : TreeShape tr t k) (hct : PathTable t k ct) {x : Byte} :
    (symGet ct x).valid = true ↔ ∃ n, n < k ∧ (nodeAt t n).sym = x := by
  constructor
  · intro hx
    by_contra hno
    rw [hct.other fun n hn he => hno ⟨n, hn, he⟩] at hx
    cases hx
  · rintro ⟨n, hn, rfl⟩
    obtain ⟨p, hp, -⟩ := h.existsUnique_path n (by omega)
    rw [hct.leaf hn hp, codeEntryOf_valid]

/-- With two or more leaves the code of a leaf's symbol is the leaf's path (43_codes R162). -/
theorem PathTable.codeBits_eq (h : TreeShape tr t k) (hk : 2 ≤ k) (hct : PathTable t k ct) {n : Nat} {p : Bits}
    (hn : n < k) (hp : follow t (2 * k - 2) p = some n) : codeBits (symGet ct (nodeAt t n).sym) = p := by
  have hcount := h.leaf_count
  have hlen := h.path_length_le hp
  rw [hct.leaf hn hp, pathCode_of_ne_nil (path_to_leaf_ne_nil hk hn hp), codeBits_codeEntryOf (by omega)]

/-- The length of the code is the depth of the leaf (43_codes R167 (e)). -/
theorem PathTable.len_eq (h : TreeShape tr t k) (hk : 2 ≤ k) (hct : PathTable t k ct) {n : Nat} {p : Bits}
    (hn : n < k) (hp : follow t (2 * k - 2) p = some n) : (symGet ct (nodeAt t n).sym).len.toNat = p.length := by
  rw [← codeBits_length, hct.codeBits_eq h hk hn hp]

/-- One leaf's code is "0" (43_codes R163). -/
theorem PathTable.codeBits_of_oneLeaf (hct : PathTable t 1 ct) : codeBits (symGet ct (nodeAt t 0).sym) = [false] := by
  rw [hct.leaf Nat.one_pos (p := []) rfl, pathCode_nil, codeBits_codeEntryOf (by decide)]

end

theorem map_range_prefix (f : Nat → Bool) {a b : Nat} (h : a ≤ b) : (List.range a).map f <+: (List.range b).map f := by
  obtain ⟨c, rfl⟩ := Nat.exists_eq_add_of_le h
  rw [List.range_add, List.map_append]
  exact List.prefix_append _ _

/-- Codes that begin one infinite bit sequence are one symbol's, in a prefix-free table (43_codes R167 (d)). -/
theorem PrefixFree.unique_on_sequence {ct : CodeTable} (h : PrefixFree ct) {f : Nat → Bool} {x y : Byte}
    (hx : (symGet ct x).valid = true) (hxf : codeBits (symGet ct x) = (List.range (symGet ct x).len.toNat).map f)
    (hy : (symGet ct y).valid = true) (hyf : codeBits (symGet ct y) = (List.range (symGet ct y).len.toNat).map f) :
    x = y := by
  by_contra hne
  rcases Nat.le_total (symGet ct x).len.toNat (symGet ct y).len.toNat with hle | hle
  · exact h x y hne hx hy (by rw [hxf, hyf]; exact map_range_prefix f hle)
  · exact h y x (Ne.symm hne) hy hx (by rw [hxf, hyf]; exact map_range_prefix f hle)

/-- With two or more leaves every infinite bit sequence begins with a code (43_codes R167 (d)). -/
theorem PathTable.exists_on_sequence {tr : Tree} {t : NodeTable} {k : Nat} {ct : CodeTable} (h : TreeShape tr t k)
    (hk : 2 ≤ k) (hct : PathTable t k ct) (f : Nat → Bool) : ∃ x, (symGet ct x).valid = true ∧
      codeBits (symGet ct x) = (List.range (symGet ct x).len.toNat).map f := by
  obtain ⟨d, n, hn, hp⟩ := h.exists_leaf_on_sequence (2 * k - 2) (by omega) f
  refine ⟨(nodeAt t n).sym, (hct.valid_iff h).mpr ⟨n, hn, rfl⟩, ?_⟩
  rw [hct.len_eq h hk hn hp, hct.codeBits_eq h hk hn hp]
  simp

/-! The command over a tree. -/

/-- CODES over a tree goes on and leaves the table of its leaves' paths, and nothing else changes but STATUS and ERR_INFO. -/
theorem exec_codes_of_tree {s : State} {k : Nat} (h : TreeShape s.tree s.node k) :
    ∃ ct, exec .codes s = .next { s with code := ct, status := ⟨.ok, s.status.sticky, 0x04#8⟩, errInfo := 0#32 } ∧
      PathTable s.node k ct := by
  obtain ⟨hv, -⟩ := h.tree_reg
  obtain ⟨ct, hct, htable⟩ := h.exists_pathTable
  exact ⟨ct, exec_codes_of_codesOf hv hct, htable⟩

/-- Settles O27: the path of the one leaf is empty. -/
theorem codesOfOneLeaf : Obligations.CodesOfOneLeaf := by
  intro s h
  obtain ⟨ct, hexec, hct⟩ := exec_codes_of_tree h
  refine ⟨ct, hexec, (hct.valid_iff h).mpr ⟨0, Nat.one_pos, rfl⟩, hct.codeBits_of_oneLeaf, fun x hx => hct.other ?_⟩
  intro n hn
  obtain rfl : n = 0 := by omega
  exact hx.symm

/-- Settles O28: each leaf has a path, and it is the leaf's code. -/
theorem codesArePaths : Obligations.CodesArePaths := by
  intro s k hk h
  obtain ⟨-, -, -, hroot⟩ := h.tree_reg
  obtain ⟨ct, hexec, hct⟩ := exec_codes_of_tree h
  refine ⟨ct, hexec, fun n hn => ⟨(hct.valid_iff h).mpr ⟨n, hn, rfl⟩, ?_⟩, fun x => hct.other⟩
  obtain ⟨p, hp, -⟩ := h.existsUnique_path n (by omega)
  rw [hct.codeBits_eq h hk hn hp, hroot, hp]

/-- Settles O30: the form of a code entry (10_state R40 item 5) and the bound on a path's length. -/
theorem codeLengthBounds : Obligations.CodeLengthBounds := by
  intro s k h
  obtain ⟨ct, hexec, hct⟩ := exec_codes_of_tree h
  obtain ⟨hform, -⟩ := exec_codes_codeOk hexec
  refine ⟨_, hexec, fun x hx => ?_⟩
  obtain ⟨hpos, hzero⟩ := (hform x).2 hx
  have h255 := Nat.le_of_lt_succ (symGet ct x).len.isLt
  refine ⟨hpos, h255, fun hk => ?_, hzero 255 h255 le_rfl⟩
  obtain ⟨n, hn, rfl⟩ := (hct.valid_iff h).mp hx
  obtain ⟨p, hp, -⟩ := h.existsUnique_path n (by omega)
  have hlen := h.path_length_le hp
  rw [hct.len_eq h hk hn hp]
  omega

/-- Settles O29: the table is prefix-free because no path goes on at a leaf (`exec_codes_codeOk`), and complete because every
infinite bit sequence leads from the root to a leaf. -/
theorem codesPrefixFreeComplete : Obligations.CodesPrefixFreeComplete := by
  intro s k h
  obtain ⟨-, -, -, hroot⟩ := h.tree_reg
  obtain ⟨ct, hexec, hct⟩ := exec_codes_of_tree h
  obtain ⟨-, hfree⟩ := exec_codes_codeOk hexec
  refine ⟨_, hexec, fun x => hct.valid_iff h, fun x y hxy hx hy he => ?_, hfree, fun hk f => ?_, ?_, fun hk n hn => ?_⟩
  · exact hfree x y hxy hx hy (he ▸ List.prefix_rfl)
  · obtain ⟨x, hx, hxf⟩ := hct.exists_on_sequence h hk f
    exact ⟨x, ⟨hx, hxf⟩, fun y ⟨hy, hyf⟩ => hfree.unique_on_sequence hy hyf hx hxf⟩
  · rintro rfl x hx
    obtain ⟨n, hn, rfl⟩ := (hct.valid_iff h).mp hx
    obtain rfl : n = 0 := by omega
    exact congrArg List.head? hct.codeBits_of_oneLeaf
  · obtain ⟨p, hp, -⟩ := h.existsUnique_path n (by omega)
    exact ⟨p, hroot ▸ hp, (hct.len_eq h hk hn hp).symm⟩

end Sys2Proof.Machine
end

section
/-! PROOF. PACK (44_pack). The artifact of any bit-string is read back entry by entry: the header, then bytes whose bits are
the bit-string followed by its padding (R179 to R181). What PACK answers is said once for each of its three ends. -/

namespace Sys2Proof.Machine

/-! The padding. -/

theorem padFor_le (n : Nat) : padFor n ≤ 7 := by unfold padFor; omega

/-- The padding fills the last byte (44_pack R179). -/
theorem add_padFor (n : Nat) : n + padFor n = 8 * ((n + 7) / 8) := by unfold padFor; omega

/-- No shorter padding fills the last byte (44_pack R179). -/
theorem padFor_least {n p : Nat} (h : p < padFor n) : (n + p) % 8 ≠ 0 := by unfold padFor at h; omega

theorem padFor_eq_zero_iff (n : Nat) : padFor n = 0 ↔ n % 8 = 0 := by unfold padFor; omega

/-! The artifact of a bit-string. -/

@[simp] theorem zeros_length (n : Nat) : (zeros n).length = n := List.length_replicate

/-- P: the bit-string followed by its padding (44_pack R179). -/
def paddedBits (b : Bits) : Bits := b ++ zeros (padFor b.length)

theorem paddedBits_length (b : Bits) : (paddedBits b).length = 8 * ((b.length + 7) / 8) := by
  rw [paddedBits, List.length_append, zeros_length, add_padFor]

/-- From the bit-string's end on, P is zero bits (44_pack R180). -/
theorem paddedBits_getElem?_of_le {b : Bits} {k : Nat} (hb : b.length ≤ k) (hk : k < (paddedBits b).length) :
    (paddedBits b)[k]? = some false := by
  rw [paddedBits_length, ← add_padFor] at hk
  rw [paddedBits, List.getElem?_append_right hb, zeros, List.getElem?_replicate_of_lt (by omega)]

/-- Payload byte `j` (44_pack R180). -/
def payloadByte (b : Bits) (j : Nat) : Byte := byteOf (((paddedBits b).drop (8 * j)).take 8)

/-- Bit `7 - i` of payload byte `j` is bit `8j + i` of P (44_pack R180). -/
theorem payloadByte_bit {b : Bits} {i j : Nat} (hj : j < (b.length + 7) / 8) (hi : i < 8) :
    (paddedBits b)[8 * j + i]? = some ((payloadByte b j).getLsbD (7 - i)) := by
  have hlen : (((paddedBits b).drop (8 * j)).take 8).length = 8 := by
    rw [List.length_take, List.length_drop, paddedBits_length]
    omega
  rw [payloadByte, ← byteOf_getLsbD hlen hi, List.getElem?_take_of_lt hi, List.getElem?_drop]

/-- The low bits of the last payload byte, as many as the padding count says, are 0 (44_pack R180). -/
theorem payloadByte_low_bits {b : Bits} {j p : Nat} (hj : j + 1 = (b.length + 7) / 8) (hp : p < padFor b.length) :
    (payloadByte b j).getLsbD p = false := by
  have hpad := padFor_le b.length
  have hfill := add_padFor b.length
  have hbit := payloadByte_bit (b := b) (i := 7 - p) (j := j) (by omega) (by omega)
  rw [paddedBits_getElem?_of_le (by omega) (by rw [paddedBits_length]; omega), Nat.sub_sub_self (by omega)] at hbit
  exact (Option.some.inj hbit).symm

/-- The payload has ceil(L / 8) bytes (44_pack R181). -/
theorem payload_size (n : Nat) : (n + padFor n) / 8 = (n + 7) / 8 := by
  rw [add_padFor, Nat.mul_div_cancel_left _ (by decide)]

theorem artifactOf_size (b : Bits) : (artifactOf b).length = 1 + (b.length + 7) / 8 := by
  rw [artifactOf_length, payload_size, Nat.add_comm]

/-- Entry `1 + j` of the artifact is payload byte `j` (44_pack R181). -/
theorem artifactOf_getElem? {b : Bits} {j : Nat} (hj : j < (b.length + 7) / 8) :
    (artifactOf b)[1 + j]? = some (payloadByte b j) := by
  rw [Nat.add_comm, artifactOf, List.getElem?_cons_succ, payload_size, List.getElem?_eq_getElem (by simpa using hj),
    bytesOfBits_getElem _ _ _ hj]
  rfl

/-! The artifact in a buffer. -/

theorem read_artifactOf_header (m : Memory) (b : Bits) :
    (m.writeAll 0 (artifactOf b)).read 0 = some (BitVec.ofNat 8 (padFor b.length)) :=
  holds_writeAll m (artifactOf b) 0 (by simp)

theorem read_artifactOf_payload (m : Memory) {b : Bits} {j : Nat} (hj : j < (b.length + 7) / 8) :
    (m.writeAll 0 (artifactOf b)).read (1 + j) = some (payloadByte b j) := by
  rw [memory_read_writeAll, if_pos (by rw [artifactOf_size]; omega), Nat.sub_zero, artifactOf_getElem? hj]

/-- Entries above the artifact keep what they had (44_pack R185). -/
theorem read_artifactOf_above (m : Memory) {b : Bits} {j : Nat} (hj : (b.length + 7) / 8 < j) :
    (m.writeAll 0 (artifactOf b)).read j = m.read j := by
  rw [memory_read_writeAll, if_neg (by rw [artifactOf_size]; omega)]

/-! The command. -/

section
variable {s : State} {xs : List Byte}

/-- PACK over a source that holds `xs` reads `xs` and draws nothing. -/
theorem exec_pack_of_holds (h : s.src.holds xs) (hn : s.srcLen.toNat = xs.length) :
    exec .pack s = .next (packStream xs s) :=
  exec_pack_eq s xs s.drawn (hn ▸ drawAll_of_holds h s.drawn)

/-- A symbol without a code after symbols that have one is the first miss (44_pack R176). -/
theorem firstMiss_eq_some {t : CodeTable} {i : Nat} (hi : i < xs.length) (hmiss : (symGet t xs[i]).valid = false)
    (hbefore : ∀ j, (hj : j < i) → (symGet t (xs[j]'(hj.trans hi))).valid = true) : firstMiss t xs = some i := by
  rw [firstMiss, List.findIdx?_eq_some_iff_getElem]
  exact ⟨hi, by simp [hmiss], fun j hj => by simp [hbefore j hj]⟩

/-- A stream with a miss has no artifact, whatever its size (44_pack R176). -/
theorem packStream_of_miss {i : Nat} (h : firstMiss s.code xs = some i) :
    packStream xs s = raise (opcodeOf .pack) .lookupMiss (BitVec.ofNat 32 i) (packFailed s) := by
  simp only [packStream, h]

/-- A coded stream whose artifact is too large (44_pack R182). -/
theorem packStream_of_overflow (h : ∀ x ∈ xs, (symGet s.code x).valid = true)
    (hbig : s.caps.artCap < 1 + ((concatCodes s.code xs).length + 7) / 8) :
    packStream xs s = raise (opcodeOf .pack) .overflow 0 (packFailed s) := by
  simp only [packStream, firstMiss_eq_none.mpr h, artifactOf_size, if_pos hbig]

/-- A coded stream whose artifact fits (44_pack R181). -/
theorem packStream_of_fit (h : ∀ x ∈ xs, (symGet s.code x).valid = true)
    (hfit : 1 + ((concatCodes s.code xs).length + 7) / 8 ≤ s.caps.artCap) :
    packStream xs s = finish (opcodeOf .pack) .ok 0 { s with
      art := s.art.writeAll 0 (artifactOf (concatCodes s.code xs))
      artLen := BitVec.ofNat 32 (1 + ((concatCodes s.code xs).length + 7) / 8) } := by
  simp only [packStream, firstMiss_eq_none.mpr h, artifactOf_size, if_neg (not_lt.mpr hfit)]

/-- PACK's whole effect where the artifact fits (44_pack R181, R185). -/
theorem exec_pack_of_fit (h : s.src.holds xs) (hn : s.srcLen.toNat = xs.length)
    (hv : ∀ x ∈ xs, (symGet s.code x).valid = true)
    (hfit : 1 + ((concatCodes s.code xs).length + 7) / 8 ≤ s.caps.artCap) :
    exec .pack s = .next { s with
      art := s.art.writeAll 0 (artifactOf (concatCodes s.code xs))
      artLen := BitVec.ofNat 32 (1 + ((concatCodes s.code xs).length + 7) / 8)
      status := ⟨.ok, s.status.sticky, 0x05#8⟩
      errInfo := 0#32 } := by
  rw [exec_pack_of_holds h hn, packStream_of_fit hv hfit]
  rfl

end

/-- Settles O32: PACK writes the artifact of the codes, whose padding is the least that fills the last byte and whose
payload bytes are read back bit by bit. -/
theorem packWritesArtifact : Obligations.PackWritesArtifact := by
  intro s xs h hn hv bits pad m hfit
  exact ⟨padFor_le _, add_padFor _, fun _ => padFor_least, padFor_eq_zero_iff _,
    s.art.writeAll 0 (artifactOf bits), exec_pack_of_fit h hn hv hfit, read_artifactOf_header s.art bits,
    fun j hj => ⟨payloadByte bits j, read_artifactOf_payload s.art hj, rfl, fun i => payloadByte_bit hj,
      fun hlast p => payloadByte_low_bits hlast⟩,
    fun j => read_artifactOf_above s.art⟩

/-- Settles O33: the symbol is the first miss, and a miss comes before the size (60_exceptions R248). -/
theorem packReportsFirstMiss : Obligations.PackReportsFirstMiss := by
  intro s xs i hi h hn hmiss hbefore
  have hend := packStream_of_miss (s := s) (firstMiss_eq_some hi hmiss hbefore)
  exact ⟨_, _, (exec_pack_of_holds h hn).trans (congrArg _ hend)⟩

/-- Settles O34: no symbol misses, so the size decides. -/
theorem packOverflows : Obligations.PackOverflows := by
  intro s xs h hn hv hbig
  exact ⟨_, _, (exec_pack_of_holds h hn).trans (congrArg _ (packStream_of_overflow hv hbig))⟩

/-- `STICKY` is set by any code but `OK` (60_exceptions R245). -/
theorem stickyAfter_eq (b : Bool) (r : ResultCode) : stickyAfter b r = (b || decide (r ≠ .ok)) := by
  by_cases h : r = .ok
  · simp [h]
  · simp [h, stickyAfter_of_ne_ok]

/-- Settles O37: by the end PACK comes to with whatever bytes it reads from the source. -/
theorem packCompletes : Obligations.PackCompletes := by
  intro s
  obtain ⟨xs, d, hread⟩ : ∃ xs d, s.src.drawAll 0 s.srcLen.toNat s.drawn = (xs, d) := ⟨_, _, rfl⟩
  simp only [exec_pack_eq s xs d hread, ← stickyAfter_eq]
  rcases packStream_cases xs { s with drawn := d } with ⟨i, -, he⟩ | ⟨-, -, he⟩ | ⟨-, -, he⟩
  · exact ⟨_, 0#32, .lookupMiss, _, _, congrArg _ he, .inr (.inl rfl), fun _ => rfl⟩
  · exact ⟨_, 0#32, .overflow, _, _, congrArg _ he, .inr (.inr rfl), fun _ => rfl⟩
  · exact ⟨_, _, .ok, _, _, congrArg _ he, .inl rfl, fun h => absurd rfl h⟩

/-! A stream of one symbol. -/

theorem concatCodes_replicate {t : CodeTable} {x : Byte} (h : codeBits (symGet t x) = [false]) (n : Nat) :
    concatCodes t (List.replicate n x) = zeros n := by
  rw [concatCodes, List.flatMap_replicate, h, List.flatten_replicate_singleton, zeros]

/-- Zero bits pack to zero bytes. -/
theorem payloadByte_zeros {n j : Nat} (hj : j < (n + 7) / 8) : payloadByte (zeros n) j = 0x00#8 := by
  have hpadded : paddedBits (zeros n) = zeros (8 * ((n + 7) / 8)) := by
    simp only [paddedBits, zeros, List.length_replicate, List.replicate_append_replicate, add_padFor]
  have hbyte : ((paddedBits (zeros n)).drop (8 * j)).take 8 = zeros 8 := by
    rw [hpadded, zeros, List.drop_replicate, List.take_replicate, Nat.min_eq_left (by omega), zeros]
  rw [payloadByte, hbyte]
  decide

/-- An artifact that fits has a length that ART_LEN holds (44_pack R181). -/
theorem artLen_toNat {c : Caps} (hc : c.wellFormed = true) {n : Nat} (hn : n ≤ c.artCap) : (BitVec.ofNat 32 n).toNat = n := by
  obtain ⟨-, hcap, -⟩ := caps_le hc
  rw [BitVec.toNat_ofNat, Nat.mod_eq_of_lt (by omega)]

theorem header_toNat (n : Nat) : (BitVec.ofNat 8 (padFor n)).toNat = padFor n := by
  rw [BitVec.toNat_ofNat, Nat.mod_eq_of_lt ((padFor_le n).trans_lt (by decide))]

/-- PACK's whole effect over `n` copies of a symbol whose code is "0" (44_pack R187). -/
theorem exec_pack_of_replicate {s : State} {x : Byte} {n : Nat} (h : s.src.holds (List.replicate n x))
    (hn : s.srcLen.toNat = n) (hv : (symGet s.code x).valid = true) (hcode : codeBits (symGet s.code x) = [false])
    (hfit : 1 + (n + 7) / 8 ≤ s.caps.artCap) :
    exec .pack s = .next { s with
      art := s.art.writeAll 0 (artifactOf (zeros n))
      artLen := BitVec.ofNat 32 (1 + (n + 7) / 8)
      status := ⟨.ok, s.status.sticky, 0x05#8⟩
      errInfo := 0#32 } := by
  have hbits := concatCodes_replicate hcode n
  have hsize : (concatCodes s.code (List.replicate n x)).length = n := by rw [hbits, zeros_length]
  rw [exec_pack_of_fit h (by rw [hn, List.length_replicate]) (fun y hy => List.eq_of_mem_replicate hy ▸ hv)
    (by rwa [hsize]), hsize, hbits]

/-- Settles O36: the codes are `n` zero bits, and ART_LEN holds the artifact's length. -/
theorem packOfOneSymbol : Obligations.PackOfOneSymbol := by
  intro s x n _ h hn hv hcode hfit hcaps
  have hlen := artLen_toNat hcaps hfit
  have hheader := header_toNat n
  refine ⟨_, BitVec.ofNat 8 (padFor n), exec_pack_of_replicate h hn hv hcode hfit, rfl, hlen,
    by simpa using read_artifactOf_header s.art (zeros n), hheader, fun j hj hj' => ?_, ?_⟩
  · obtain ⟨k, rfl⟩ : ∃ k, j = 1 + k := ⟨j - 1, by omega⟩
    have hk : k < (n + 7) / 8 := Nat.lt_of_add_lt_add_left (hj'.trans_eq hlen)
    rw [read_artifactOf_payload s.art (by rwa [zeros_length]), payloadByte_zeros hk]
  · have hfill := add_padFor n
    rw [hlen, hheader]
    omega

/-! The empty artifact. -/

/-- Settles O35: no symbol can miss, and no bit is walked. -/
theorem emptyArtifact : Obligations.EmptyArtifact := by
  refine fun s => ⟨fun hn hcap => ?_, fun hn hread => ?_⟩
  · have hempty : s.src.holds [] := fun i hi => absurd hi (Nat.not_lt_zero i)
    have hcodes : concatCodes s.code [] = [] := rfl
    have hart : artifactOf [] = [0x00#8] := by decide
    have hsize : 1 + (([] : Bits).length + 7) / 8 = 1 := by decide
    have hexec := exec_pack_of_fit hempty (by rw [hn]; rfl) (by simp) (by rwa [hcodes, hsize])
    rw [hcodes, hart, hsize] at hexec
    exact hexec
  · have hdraw : s.art.drawAll 0 s.artLen.toNat s.drawn = ([0x00#8], s.drawn) := by
      rw [hn]
      exact memory_drawAll_eq s.art [0x00#8] 0 s.drawn (by simpa using hread)
    exact exec_unpack_eq s _ _ hdraw

end Sys2Proof.Machine
end

section
/-! PROOF. UNPACK (45_unpack). Over a prefix-free code the walk emits the symbols whose codes the bits are (R200) and keeps
bits that begin with no code (R201); how UNPACK ends then depends on the header, the bits kept and the number of
symbols alone. -/

namespace Sys2Proof.Machine

/-! The reverse table. -/

/-- What a code table needs for the decoding walk: no valid code is empty, and none begins another symbol's valid code. -/
structure PrefixCode (t : CodeTable) : Prop where
  nonempty : ∀ {x}, (symGet t x).valid = true → codeBits (symGet t x) ≠ []
  prefix_free : PrefixFree t

section
variable {t : CodeTable} {x y : Byte}

theorem CodeOk.prefixCode (h : CodeOk t) : PrefixCode t := by
  obtain ⟨hform, hfree⟩ := h
  refine ⟨fun {x} hx hnil => ?_, hfree⟩
  obtain ⟨hpos, -⟩ := (hform x).2 hx
  rw [← codeBits_length, hnil] at hpos
  exact absurd hpos (by decide)

theorem eq_of_valid_of_only (honly : ∀ y, y ≠ x → (symGet t y).valid = false) (hy : (symGet t y).valid = true) : y = x := by
  by_contra hyx
  exact absurd (hy.symm.trans (honly y hyx)) (by decide)

/-- One code alone begins no other. -/
theorem prefixCode_of_only (hne : codeBits (symGet t x) ≠ []) (honly : ∀ y, y ≠ x → (symGet t y).valid = false) :
    PrefixCode t :=
  ⟨fun hy => eq_of_valid_of_only honly hy ▸ hne, fun _ _ hyz hy hz =>
    absurd ((eq_of_valid_of_only honly hy).trans (eq_of_valid_of_only honly hz).symm) hyz⟩

/-- Of two valid codes one begins the other only where both are one symbol's. -/
theorem PrefixCode.eq_of_prefix (h : PrefixCode t) (hx : (symGet t x).valid = true) (hy : (symGet t y).valid = true)
    (hpre : codeBits (symGet t x) <+: codeBits (symGet t y)) : x = y := by
  by_contra hne
  exact h.prefix_free x y hne hx hy hpre

/-- `lookup` is the reverse of the code table (45_unpack R199). -/
theorem PrefixCode.lookup_eq_some_iff (h : PrefixCode t) {c : Bits} :
    lookup t c = some x ↔ (symGet t x).valid = true ∧ codeBits (symGet t x) = c := by
  refine ⟨lookup_sound, fun ⟨hx, hc⟩ => ?_⟩
  cases hl : lookup t c with
  | none => exact absurd hc (lookup_none hl x hx)
  | some y =>
    obtain ⟨hy, hyc⟩ := lookup_sound hl
    rw [h.eq_of_prefix hy hx (by rw [hyc, hc])]

/-- `lookup` finds nothing where no valid code is the bit-string (45_unpack R199). -/
theorem lookup_eq_none {c : Bits} (h : ∀ x, (symGet t x).valid = true → codeBits (symGet t x) ≠ c) : lookup t c = none := by
  cases hl : lookup t c with
  | none => rfl
  | some x =>
    obtain ⟨hx, hc⟩ := lookup_sound hl
    exact absurd hc (h x hx)

end

/-- Settles O44: a valid code has 1 to 255 bits, so neither the empty string nor a longer one is a code. -/
theorem lookupIsReverseTable : Obligations.LookupIsReverseTable := by
  intro t ht
  have hcode := ht.prefixCode
  refine ⟨fun c x => hcode.lookup_eq_some_iff, lookup_eq_none fun x => hcode.nonempty, fun c hc =>
    lookup_eq_none fun x _ hxc => ?_⟩
  have hlen := codeBits_length (symGet t x)
  have h255 := (symGet t x).len.isLt
  rw [hxc] at hlen
  omega

/-! The decoding walk. -/

section
variable {t : CodeTable}

/-- From a candidate that begins a code, the walk over the rest of the code emits its symbol (45_unpack R200). -/
theorem PrefixCode.decodeWalk_code (h : PrefixCode t) {x : Byte} (hx : (symGet t x).valid = true) {cand rest : Bits}
    (hrest : rest ≠ []) (hc : cand ++ rest = codeBits (symGet t x)) (bs : Bits) :
    decodeWalk t cand (rest ++ bs) = (x :: (decodeWalk t [] bs).1, (decodeWalk t [] bs).2) := by
  induction rest generalizing cand with
  | nil => exact absurd rfl hrest
  | cons b rest ih =>
    rw [List.append_cons] at hc
    by_cases hlast : rest = []
    · subst hlast
      exact decodeWalk_match (h.lookup_eq_some_iff.mpr ⟨hx, by rw [← hc]; simp⟩) bs
    · have hgrow : lookup t (cand ++ [b]) = none := lookup_eq_none fun y hy hyc => by
        have hpre : codeBits (symGet t y) <+: codeBits (symGet t x) := by
          rw [hyc, ← hc]
          exact List.prefix_append _ _
        rw [h.eq_of_prefix hy hx hpre, ← hc] at hyc
        exact hlast (List.append_right_eq_self.mp hyc)
      rw [List.cons_append, decodeWalk_grow hgrow, ih hlast hc]

/-- The walk over the codes of a sequence emits the sequence and goes on with an empty candidate (45_unpack R200). -/
theorem PrefixCode.decodeWalk_codes (h : PrefixCode t) {out : List Byte} (hv : ∀ x ∈ out, (symGet t x).valid = true)
    (bs : Bits) :
    decodeWalk t [] (concatCodes t out ++ bs) = (out ++ (decodeWalk t [] bs).1, (decodeWalk t [] bs).2) := by
  induction out with
  | nil => rfl
  | cons x out ih =>
    have hx : (symGet t x).valid = true := hv x (by simp)
    have hcodes : concatCodes t (x :: out) ++ bs = codeBits (symGet t x) ++ (concatCodes t out ++ bs) := by
      rw [concatCodes, List.flatMap_cons, List.append_assoc, concatCodes]
    rw [hcodes, h.decodeWalk_code hx (h.nonempty hx) rfl, ih fun y hy => hv y (by simp [hy])]
    rfl

/-- Bits that begin with no code are kept as the candidate (45_unpack R201). -/
theorem decodeWalk_no_code {cand bs : Bits}
    (h : ∀ x, (symGet t x).valid = true → ¬ codeBits (symGet t x) <+: cand ++ bs) :
    decodeWalk t cand bs = ([], cand ++ bs) := by
  induction bs generalizing cand with
  | nil => rw [List.append_nil]; rfl
  | cons b bs ih =>
    rw [List.append_cons] at h ⊢
    have hgrow : lookup t (cand ++ [b]) = none := lookup_eq_none fun x hx hxc =>
      h x hx (hxc ▸ List.prefix_append _ _)
    rw [decodeWalk_grow hgrow, ih h]

/-- The walk over the codes of a sequence and nothing else. -/
theorem PrefixCode.decodeWalk_concatCodes (h : PrefixCode t) {out : List Byte}
    (hv : ∀ x ∈ out, (symGet t x).valid = true) : decodeWalk t [] (concatCodes t out) = (out, []) := by
  simpa [decodeWalk] using h.decodeWalk_codes hv []

/-- The walk over the codes of a sequence followed by bits that begin with no code. -/
theorem PrefixCode.decodeWalk_trailing (h : PrefixCode t) {out : List Byte} {cand : Bits}
    (hv : ∀ x ∈ out, (symGet t x).valid = true)
    (hcand : ∀ x, (symGet t x).valid = true → ¬ codeBits (symGet t x) <+: cand) :
    decodeWalk t [] (concatCodes t out ++ cand) = (out, cand) := by
  rw [h.decodeWalk_codes hv, decodeWalk_no_code hcand, List.append_nil, List.nil_append]

end

/-! The command. -/

section
variable {s : State} {header : Byte} {payload : List Byte}

/-- UNPACK over an artifact that ART holds reads it and draws nothing. -/
theorem exec_unpack_of_holds {xs : List Byte} (h : s.art.holds xs) (hn : s.artLen.toNat = xs.length) :
    exec .unpack s = .next (unpackStream xs s) :=
  exec_unpack_eq s xs s.drawn (hn ▸ drawAll_of_holds h s.drawn)

/-- A header above 7 (45_unpack R197). -/
theorem unpackStream_of_header_high (h : 7 < header.toNat) :
    unpackStream (header :: payload) s = unpackFail .malformedStream 2 s := by
  simp only [unpackStream, if_pos h]

/-- A header up to 7 and above the payload's bits (45_unpack R198). -/
theorem unpackStream_of_header_long (h7 : header.toNat ≤ 7) (h : 8 * payload.length < header.toNat) :
    unpackStream (header :: payload) s = unpackFail .malformedStream 3 s := by
  simp only [unpackStream, if_neg (not_lt.mpr h7), if_pos h]

/-- A header that passes the checks (45_unpack R195). -/
theorem unpackStream_of_header_ok (h7 : header.toNat ≤ 7) (hlen : header.toNat ≤ 8 * payload.length) :
    unpackStream (header :: payload) s = unpackPayload header.toNat payload s := by
  simp only [unpackStream, if_neg (not_lt.mpr h7), if_neg (not_lt.mpr hlen)]

variable {pad : Nat} {out : List Byte} {cand : Bits}

/-- A walk that ends with a candidate (45_unpack R201). -/
theorem unpackPayload_of_trailing (hwalk : decodeWalk s.code [] (payloadBits payload pad) = (out, cand)) (hcand : cand ≠ []) :
    unpackPayload pad payload s = unpackFail .malformedStream 0 s := by
  simp only [unpackPayload, hwalk, if_pos hcand]

/-- A walk that ends with too many symbols (45_unpack R202). -/
theorem unpackPayload_of_overflow (hwalk : decodeWalk s.code [] (payloadBits payload pad) = (out, []))
    (hbig : s.caps.dstCap < out.length) : unpackPayload pad payload s = unpackFail .overflow 1 s := by
  simp only [unpackPayload, hwalk, if_neg (not_not.mpr rfl), if_pos hbig]

/-- A walk whose symbols fit (45_unpack R203). -/
theorem unpackPayload_of_fit (hwalk : decodeWalk s.code [] (payloadBits payload pad) = (out, []))
    (hfit : out.length ≤ s.caps.dstCap) :
    unpackPayload pad payload s = finish (opcodeOf .unpack) .ok 0
      { s with dst := s.dst.writeAll 0 out, dstLen := BitVec.ofNat 32 out.length } := by
  simp only [unpackPayload, hwalk, if_neg (not_not.mpr rfl), if_neg (not_lt.mpr hfit)]

/-- UNPACK over an artifact whose header passes the checks is the walk over its payload. -/
theorem exec_unpack_of_header_ok (h : s.art.holds (header :: payload)) (hn : s.artLen.toNat = payload.length + 1)
    (h7 : header.toNat ≤ 7) (hlen : header.toNat ≤ 8 * payload.length) :
    exec .unpack s = .next (unpackPayload header.toNat payload s) := by
  rw [exec_unpack_of_holds h hn, unpackStream_of_header_ok h7 hlen]

end

/-- Settles O38: the checks of the header come before the payload is walked. -/
theorem unpackHeaderFaults : Obligations.UnpackHeaderFaults := by
  refine ⟨fun s h0 => ?_, fun s header payload h hn => ⟨fun hhigh => ?_, fun h7 hlong => ⟨?_, ?_⟩⟩⟩
  · have hempty : s.art.holds [] := fun i hi => absurd hi (Nat.not_lt_zero i)
    exact ⟨_, _, exec_unpack_of_holds hempty (by rw [h0]; rfl)⟩
  · exact ⟨_, _, (exec_unpack_of_holds h hn).trans (congrArg _ (unpackStream_of_header_high hhigh))⟩
  · exact List.length_eq_zero_iff.mp (by omega)
  · exact ⟨_, _, (exec_unpack_of_holds h hn).trans (congrArg _ (unpackStream_of_header_long h7 hlong))⟩

/-- Settles O39: the walk emits out and ends with no candidate. -/
theorem unpackDecodes : Obligations.UnpackDecodes := by
  intro s header payload out h hn h7 hlen hcode hv hbits hfit
  have hwalk : decodeWalk s.code [] (payloadBits payload header.toNat) = (out, []) :=
    (congrArg _ hbits).trans (hcode.prefixCode.decodeWalk_concatCodes hv)
  refine ⟨fun j i hj hi => bitsOfBytes_getElem? payload hj hi, s.dst.writeAll 0 out,
    (exec_unpack_of_header_ok h hn h7 hlen).trans (congrArg _ (unpackPayload_of_fit hwalk hfit)),
    holds_writeAll s.dst out, fun j hj => ?_⟩
  rw [memory_read_writeAll, if_neg (by omega)]

/-- Settles O40: the walk emits out, which is too long. -/
theorem unpackOverflows : Obligations.UnpackOverflows := by
  intro s header payload out h hn h7 hlen hcode hv hbits hbig
  have hwalk : decodeWalk s.code [] (payloadBits payload header.toNat) = (out, []) :=
    (congrArg _ hbits).trans (hcode.prefixCode.decodeWalk_concatCodes hv)
  exact ⟨_, _, (exec_unpack_of_header_ok h hn h7 hlen).trans (congrArg _ (unpackPayload_of_overflow hwalk hbig))⟩

/-- Settles O41: the walk ends with the candidate, which is tested before the size (60_exceptions R248). -/
theorem unpackTrailingCandidate : Obligations.UnpackTrailingCandidate := by
  intro s header payload out cand h hn h7 hlen hcode hv hbits hne hcand
  have hwalk : decodeWalk s.code [] (payloadBits payload header.toNat) = (out, cand) :=
    (congrArg _ hbits).trans (hcode.prefixCode.decodeWalk_trailing hv hcand)
  exact ⟨_, _, (exec_unpack_of_header_ok h hn h7 hlen).trans (congrArg _ (unpackPayload_of_trailing hwalk hne))⟩

/-- Settles O43: by the end UNPACK comes to with whatever bytes it reads from the artifact. -/
theorem unpackCompletes : Obligations.UnpackCompletes := by
  intro s
  obtain ⟨xs, d, hread⟩ : ∃ xs d, s.art.drawAll 0 s.artLen.toNat s.drawn = (xs, d) := ⟨_, _, rfl⟩
  have hinv : s.Inv → (unpackStream xs { s with drawn := d }).Inv := fun h => unpackStream_inv xs h.frame
  simp only [exec_unpack_eq s xs d hread, ← stickyAfter_eq]
  rcases unpackStream_cases xs { s with drawn := d } with ⟨r, info, -, hr, he⟩ | ⟨header, payload, -, -, -, -, -, he⟩ <;>
    rw [he] at hinv
  · exact ⟨_, 0#32, r, info, _, congrArg _ he, .inr hr, fun _ => rfl, hinv⟩
  · exact ⟨_, _, .ok, 0#32, _, congrArg _ he, .inl rfl, fun h => absurd rfl h, hinv⟩

/-! The padding. -/

/-- The payload enters by its length and its bits without the padding alone (45_unpack R206). -/
theorem unpackStream_congr_payload {header : Byte} {payload payload' : List Byte} (hlen : payload'.length = payload.length)
    (hbits : payloadBits payload header.toNat = payloadBits payload' header.toNat) (s : State) :
    unpackStream (header :: payload') s = unpackStream (header :: payload) s := by
  simp only [unpackStream, unpackPayload, hlen, hbits]

/-- UNPACK of the bytes read does not look at ART again. -/
theorem unpackStream_set_art (xs : List Byte) (s : State) (a : Memory) :
    unpackStream xs { s with art := a } = { unpackStream xs s with art := a } := by
  rcases unpackStream_end xs s.code s.caps with ⟨x, info, -, he⟩ | ⟨out, he⟩ <;>
    rw [he s rfl rfl, he { s with art := a } rfl rfl]
  · rfl
  · rfl

/-- Settles O42: both artifacts have the same bits to decode. -/
theorem unpackIgnoresPadding : Obligations.UnpackIgnoresPadding := by
  intro s art' header payload payload' h h' hn hlen hbits
  have hn' : s.artLen.toNat = (header :: payload').length := by rw [hn, List.length_cons, hlen]
  have hbits' : payloadBits payload header.toNat = payloadBits payload' header.toNat := by
    rw [payloadBits, payloadBits, hlen]
    exact hbits
  refine ⟨_, exec_unpack_of_holds h hn, ?_⟩
  rw [exec_unpack_of_holds (s := { s with art := art' }) h' hn', unpackStream_congr_payload hlen hbits', unpackStream_set_art]

/-! One code. -/

/-- Bits up to the first 1. -/
theorem exists_zeros_append_of_mem {bits : Bits} (h : true ∈ bits) : ∃ n rest, bits = zeros n ++ true :: rest := by
  obtain ⟨pre, rest, rfl, hpre⟩ := List.eq_append_cons_of_mem h
  have hzero : pre = zeros pre.length := List.eq_replicate_of_mem fun b hb =>
    (Bool.not_eq_true b).mp fun hb' => hpre (hb' ▸ hb)
  exact ⟨pre.length, rest, congrArg (· ++ true :: rest) hzero⟩

/-- Settles O45: zero bits are the codes of copies of the symbol, and the first 1 begins a candidate that no code begins. -/
theorem unpackWithOneCode : Obligations.UnpackWithOneCode := by
  intro s x header payload h hn h7 hlen hx hc honly bits
  have hcode : PrefixCode s.code := prefixCode_of_only (by rw [hc]; decide) honly
  have hv (n : Nat) : ∀ y ∈ List.replicate n x, (symGet s.code y).valid = true := fun y hy =>
    List.eq_of_mem_replicate hy ▸ hx
  refine ⟨_, exec_unpack_of_header_ok h hn h7 hlen, fun hzero hfit => ?_, fun hone => ?_⟩
  · have hbits : bits = concatCodes s.code (List.replicate bits.length x) := by
      rw [concatCodes_replicate hc, zeros, ← List.eq_replicate_of_mem hzero]
    have hwalk : decodeWalk s.code [] (payloadBits payload header.toNat) = (List.replicate bits.length x, []) :=
      (congrArg _ hbits).trans (hcode.decodeWalk_concatCodes (hv _))
    rw [unpackPayload_of_fit hwalk (by rwa [List.length_replicate]), List.length_replicate]
    exact ⟨rfl, rfl, holds_writeAll s.dst _⟩
  · obtain ⟨n, rest, hbits⟩ := exists_zeros_append_of_mem hone
    have hcand : ∀ y, (symGet s.code y).valid = true → ¬ codeBits (symGet s.code y) <+: true :: rest := fun y hy hpre => by
      rw [eq_of_valid_of_only honly hy, hc, List.cons_prefix_cons] at hpre
      exact absurd hpre.1 (by decide)
    have hwalk : decodeWalk s.code [] (payloadBits payload header.toNat) = (List.replicate n x, true :: rest) := by
      rw [← hcode.decodeWalk_trailing (hv n) hcand, concatCodes_replicate hc, ← hbits]
      rfl
    rw [unpackPayload_of_trailing hwalk (List.cons_ne_nil _ _)]
    exact ⟨rfl, rfl⟩

end Sys2Proof.Machine
end

section
/-! PROOF. The round trip (45_unpack R208). COUNT, BUILD and CODES give every symbol of the source a code of a prefix-free
table, and UNPACK undoes the artifact that PACK makes of it. -/

namespace Sys2Proof.Machine

/-! The artifact of a coded sequence. -/

/-- Dropping the padding of an artifact's payload gives the bit-string back (44_pack R179, 45_unpack R195). -/
theorem payloadBits_bytesOfBits (b : Bits) :
    payloadBits (bytesOfBits ((b.length + padFor b.length) / 8) (b ++ zeros (padFor b.length))) (padFor b.length) = b := by
  have hfill := add_padFor b.length
  rw [payloadBits, bytesOfBits_length, bitsOfBytes_bytesOfBits (by rw [List.length_append, zeros_length]; omega),
    show 8 * ((b.length + padFor b.length) / 8) - padFor b.length = b.length by omega, List.take_left]

/-- UNPACK of the artifact of a sequence's codes gives the sequence (45_unpack R208). -/
theorem unpackStream_artifactOf {s : State} {ct : CodeTable} {xs : List Byte} (hct : s.code = ct) (hcode : PrefixCode ct)
    (hv : ∀ x ∈ xs, (symGet ct x).valid = true) (hfit : xs.length ≤ s.caps.dstCap) :
    unpackStream (artifactOf (concatCodes ct xs)) s = finish (opcodeOf .unpack) .ok 0
      { s with dst := s.dst.writeAll 0 xs, dstLen := BitVec.ofNat 32 xs.length } := by
  have hheader := header_toNat (concatCodes ct xs).length
  have hpad := padFor_le (concatCodes ct xs).length
  have hfill := add_padFor (concatCodes ct xs).length
  rw [artifactOf, unpackStream_of_header_ok (hheader.trans_le hpad) (by rw [hheader, bytesOfBits_length]; omega), hheader,
    unpackPayload_of_fit (by rw [payloadBits_bytesOfBits, hct, hcode.decodeWalk_concatCodes hv]) hfit]

/-- Where PACK of a coded sequence ends OK, UNPACK gives the sequence back (45_unpack R208). -/
theorem exec_unpack_of_pack {s t : State} {xs : List Byte} (ht : exec .pack s = .next t) (hok : t.status.result = .ok)
    (hcaps : s.caps.wellFormed = true) (hsrc : s.src.holds xs) (hn : s.srcLen.toNat = xs.length)
    (hcode : PrefixCode s.code) (hv : ∀ x ∈ xs, (symGet s.code x).valid = true) (hdst : xs.length ≤ s.caps.dstCap) :
    exec .unpack t = .next { t with
      dst := t.dst.writeAll 0 xs
      dstLen := BitVec.ofNat 32 xs.length
      status := ⟨.ok, t.status.sticky, 0x06#8⟩
      errInfo := 0#32 } := by
  rcases Nat.lt_or_ge s.caps.artCap (1 + ((concatCodes s.code xs).length + 7) / 8) with hbig | hfit
  · rw [exec_pack_of_holds hsrc hn, packStream_of_overflow hv hbig] at ht
    cases ht
    cases hok
  · rw [exec_pack_of_fit hsrc hn hv hfit] at ht
    cases ht
    rw [exec_unpack_of_holds (holds_writeAll _ _) ((artLen_toNat hcaps hfit).trans (artifactOf_size _).symm)]
    exact congrArg _ (unpackStream_artifactOf rfl hcode hv hdst)

/-! The code of a counted sequence. -/

section
variable {xs : List Byte}

/-- The symbols of the table of a sequence are the sequence's (41_count R120). -/
theorem mem_presentSymbols_countAll (h : xs.length < 2 ^ 32) {x : Byte} (hx : x ∈ xs) : x ∈ presentSymbols (countAll xs) := by
  have hcount : (symGet (countAll xs) x).toNat ≠ 0 := by
    rw [symGet_countAll_toNat h]
    exact (List.count_pos_iff.mpr hx).ne'
  refine List.mem_filter.mpr ⟨mem_allSymbols x, decide_eq_true fun h0 => hcount ?_⟩
  rw [h0]
  rfl

/-- The codes of a sequence take Σ FREQ · LEN bits (44_pack R178). -/
theorem encodedBits_countAll (h : xs.length < 2 ^ 32) (t : CodeTable) :
    encodedBits (countAll xs) t = (concatCodes t xs).length := by
  have hcover : xs.toFinset ⊆ allSymbols.toFinset := fun x _ => List.mem_toFinset.mpr (mem_allSymbols x)
  calc encodedBits (countAll xs) t
      = ∑ x ∈ allSymbols.toFinset, xs.count x • (symGet t x).len.toNat := by
        rw [List.sum_toFinset _ allSymbols_nodup]
        simp only [encodedBits, symGet_countAll_toNat h, smul_eq_mul]
    _ = ∑ x ∈ xs.toFinset, xs.count x • (symGet t x).len.toNat :=
        (Finset.sum_subset hcover fun x _ hx => by
          rw [List.count_eq_zero_of_not_mem fun hmem => hx (List.mem_toFinset.mpr hmem), zero_smul]).symm
    _ = (xs.map fun x => (symGet t x).len.toNat).sum := (Finset.sum_list_map_count xs _).symm
    _ = (concatCodes t xs).length := by simp only [concatCodes, List.length_flatMap, codeBits_length]

/-- The table of the leaves' paths in BUILD's tree has a code for every symbol counted (43_codes R167 (a)). -/
theorem PathTable.valid_of_mem_presentSymbols {f : FreqTable} {ct : CodeTable} (hne : presentSymbols f ≠ [])
    (hct : PathTable (builtNodes f) (presentSymbols f).length ct) {x : Byte} (hx : x ∈ presentSymbols f) :
    (symGet ct x).valid = true := by
  obtain ⟨j, hj, rfl⟩ := List.getElem_of_mem hx
  exact (hct.valid_iff (builtNodes_treeShape hne)).mpr ⟨j, hj, by rw [nodeAt_builtNodes_leaf f hj]; rfl⟩

end

/-- COUNT, BUILD and CODES over a source that is not empty end OK and leave a prefix-free table with a code for every symbol
of the source (43_codes R167). -/
theorem exists_code_of_holds {s : State} {xs : List Byte} (hsrc : s.src.holds xs) (hn : s.srcLen.toNat = xs.length)
    (hpos : 1 ≤ xs.length) :
    ∃ t₁ t₂ t₃, (exec .count s = .next t₁ ∧ exec .build t₁ = .next t₂ ∧ exec .codes t₂ = .next t₃) ∧
      (t₁.status.result = .ok ∧ t₂.status.result = .ok ∧ t₃.status.result = .ok) ∧
      (t₁.freq = countAll xs ∧ t₃.caps = s.caps ∧ t₃.src = s.src ∧ t₃.srcLen = s.srcLen) ∧
      PrefixCode t₃.code ∧ ∀ x ∈ xs, (symGet t₃.code x).valid = true := by
  have hlt : xs.length < 2 ^ 32 := hn ▸ s.srcLen.isLt
  obtain ⟨x, hx⟩ := List.exists_mem_of_length_pos hpos
  have hne : presentSymbols (countAll xs) ≠ [] := List.ne_nil_of_mem (mem_presentSymbols_countAll hlt hx)
  have hbuild := exec_build_of_nonempty (s := { s with
    freq := countAll xs, status := ⟨.ok, s.status.sticky, 0x02#8⟩, errInfo := 0#32 }) hne
  obtain ⟨ct, hcodes, hct⟩ := exec_codes_of_tree (s := { s with
    freq := countAll xs, node := builtNodes (countAll xs), tree := builtTree (countAll xs)
    status := ⟨.ok, s.status.sticky, 0x03#8⟩, errInfo := 0#32 }) (builtNodes_treeShape hne)
  exact ⟨_, _, _, ⟨exec_count_of_holds hsrc hn, hbuild, hcodes⟩, ⟨rfl, rfl, rfl⟩, ⟨rfl, rfl, rfl, rfl⟩,
    (exec_codes_codeOk hcodes).prefixCode,
    fun y hy => hct.valid_of_mem_presentSymbols hne (mem_presentSymbols_countAll hlt hy)⟩

/-- Settles O46: PACK ends OK where the size that the counts and the code lengths say fits, and UNPACK then undoes it; the
empty source has the artifact of O35. -/
theorem roundTrip : Obligations.RoundTrip := by
  refine ⟨fun s xs hcaps hsrc hn hpos _ hdst => ?_, fun s hn hcap => ?_⟩
  · have hlt : xs.length < 2 ^ 32 := hn ▸ s.srcLen.isLt
    obtain ⟨t₁, t₂, t₃, ⟨hcount, hbuild, hcodes⟩, ⟨hok₁, hok₂, hok₃⟩, ⟨hfreq, hcaps₃, hsrc₃, hn₃⟩, hcode, hv⟩ :=
      exists_code_of_holds hsrc hn hpos
    rw [← hcaps₃] at hcaps hdst ⊢
    rw [← hsrc₃] at hsrc
    rw [← hn₃] at hn
    have hpack := exec_pack_of_holds hsrc hn
    refine ⟨t₁, t₂, t₃, _, hcount, hbuild, hcodes, hpack, hok₁, hok₂, hok₃, fun hfit => ?_, fun hok => ?_⟩
    · rw [hfreq, encodedBits_countAll hlt] at hfit
      rw [packStream_of_fit hv hfit]
      rfl
    · exact ⟨_, exec_unpack_of_pack hpack hok hcaps hsrc hn hcode hv hdst, rfl,
        (BitVec.toNat_ofNat _ _).trans (Nat.mod_eq_of_lt hlt), holds_writeAll _ xs⟩
  · have hpack := (emptyArtifact s).1 hn hcap
    exact ⟨_, _, hpack, (emptyArtifact _).2 rfl (memory_read_write_self _ _ _), rfl, rfl⟩

end Sys2Proof.Machine
end

section
/-! PROOF. The control commands (46_control_commands). NOP, CLEAR and ECLR by their whole effect (R220 to R223). That no
command hangs (R224) is about CODES alone, the one command that can stop: over a tree of 10_state R40 item 4 its walk
succeeds. The step then goes on, because a write either runs a command or is answered at once; what it appends is read off
what it did. -/

namespace Sys2Proof.Machine

/-! NOP, CLEAR and ECLR. -/

/-- Settles O11. -/
theorem nopRecordsOnly : Obligations.NopRecordsOnly := fun _ => rfl

/-- Settles O12: the tables and lengths CLEAR empties are all that reset empties but the buffers. -/
theorem clearIsResetButBuffers : Obligations.ClearIsResetButBuffers := fun _ =>
  ⟨_, rfl, show (Status.mk .ok false 0x01#8).word = 0x00000100#32 by decide, rfl⟩

/-- Settles O13. -/
theorem eclrClearsErrorRecord : Obligations.EclrClearsErrorRecord := fun _ =>
  ⟨_, rfl, show (Status.mk .ok false 0x07#8).word = 0x00000700#32 by decide, rfl⟩

/-! What goes on. -/

/-- Only CODES has a way to stop (entry 7). -/
theorem exec_next_of_ne_codes {i : Instr} (s : State) (h : i ≠ .codes) : ∃ t, exec i s = .next t := by
  cases i with
  | codes => exact absurd rfl h
  | build =>
    rw [exec_build_eq]
    split_ifs
    · exact ⟨_, rfl⟩
    · exact ⟨_, rfl⟩
  | nop | clear | count | pack | unpack | eclr => exact ⟨_, rfl⟩

/-- CODES goes on over no tree and over a tree of 10_state R40 item 4. -/
theorem exec_codes_next {s : State} (h : TreeOk s) : ∃ t, exec .codes s = .next t := by
  obtain ⟨-, htree⟩ := h
  cases hv : s.tree.valid with
  | false => exact ⟨_, exec_codes_of_noTree hv⟩
  | true =>
    obtain ⟨ct, hexec, -⟩ := exec_codes_of_tree (htree hv)
    exact ⟨_, hexec⟩

theorem State.Inv.exec_next {s : State} (h : s.Inv) (i : Instr) : ∃ t, exec i s = .next t := by
  by_cases hi : i = .codes
  · exact hi ▸ exec_codes_next h.tree_ok
  · exact exec_next_of_ne_codes s hi

theorem State.Inv.runCommand_next {s : State} (h : s.Inv) (w : Word) : ∃ t, runCommand w s = .next t := by
  unfold runCommand
  split
  · exact h.exec_next _
  · exact ⟨_, rfl⟩

/-- A write goes on if the run of its word as a command does: every other write is answered at once (20_memory R63). -/
theorem hostWrite_next {run : Word → State → Host.Outcome State Fault Refusal} {w : Word} {s : State}
    (h : ∃ t, run w s = .next t) (a : Word) : ∃ t, hostWrite run a w s = .next t := by
  obtain ⟨t, ht⟩ := h
  unfold hostWrite
  split
  · split
    · exact ⟨_, rfl⟩
    · split
      · exact ⟨respond .okay 0 t, by rw [ht]; rfl⟩
      · exact ⟨_, rfl⟩
  · exact ⟨_, rfl⟩

theorem State.Inv.step_next {s : State} (h : s.Inv) : ∃ t, step s = .next t := by
  match hp : s.pending with
  | [] => exact ⟨s, by simp only [step, hp]⟩
  | x :: rest =>
    have hrest : ({ s with pending := rest } : State).Inv := h.frame
    rw [step_of_pending hp]
    cases x with
    | read a => exact ⟨_, rfl⟩
    | write a w => exact hostWrite_next (hrest.runCommand_next w) a
    | reset => exact ⟨_, rfl⟩

/-! What a step appends. -/

/-- A stored write leaves the inputs still to come and the answers given. -/
theorem writeTarget_keeps_port {g : Target} {w : Word} {s s' : State} (h : writeTarget g w s = some s') :
    s'.pending = s.pending ∧ s'.responses = s.responses := by
  rcases writeTarget_cases h with ⟨-, -, rfl⟩ | ⟨-, -, rfl⟩ | ⟨_, -, rfl⟩ | ⟨_, -, rfl⟩ | ⟨_, -, rfl⟩ <;> exact ⟨rfl, rfl⟩

theorem exists_respond_append {r : Resp} {v : Word} {s : State} {l : List Response} (h : s.responses = l) :
    ∃ a, (respond r v s).responses = l ++ [a] :=
  ⟨⟨r, v⟩, by rw [respond_responses, h]⟩

/-- A step that goes on takes its input and, but for reset, appends one answer (20_memory R60). -/
theorem step_appends_answer {s t : State} {x : HostInput} {rest : List HostInput} (hs : step s = .next t)
    (hp : s.pending = x :: rest) :
    t.pending = rest ∧ (x ≠ .reset → ∃ r, t.responses = s.responses ++ [r]) := by
  rcases step_cases hs with ⟨hnil, -⟩ | ⟨x', rest', hp', hx⟩
  · exact absurd (hp.symm.trans hnil) (List.cons_ne_nil x rest)
  obtain ⟨rfl, rfl⟩ := List.cons.inj (hp.symm.trans hp')
  rcases hx with ⟨rfl, rfl⟩ | ⟨a, -, rfl⟩ | ⟨a, w, -, hw⟩
  · exact ⟨rfl, fun hne => absurd rfl hne⟩
  · obtain ⟨r, v, d, he⟩ := hostRead_eq a { s with pending := rest }
    exact he ▸ ⟨rfl, fun _ => ⟨_, rfl⟩⟩
  · rcases hw with rfl | ⟨g, s', -, -, hw, rfl⟩ | ⟨i, s', -, -, hexec, rfl⟩ | ⟨-, rfl⟩
    · exact ⟨rfl, fun _ => ⟨_, rfl⟩⟩
    · obtain ⟨hpend, hresp⟩ := writeTarget_keeps_port hw
      exact ⟨hpend, fun _ => exists_respond_append hresp⟩
    · obtain ⟨-, -, hpend, hresp, -⟩ := commandsWriteOnlyTheirRow i _ s' hexec
      exact ⟨hpend, fun _ => exists_respond_append hresp⟩
    · exact ⟨rfl, fun _ => ⟨_, rfl⟩⟩

/-- Settles O49: the invariants give CODES a tree to walk, so every command and with it the step goes on. -/
theorem everyAccessAnswered : Obligations.EveryAccessAnswered := by
  intro s h
  obtain ⟨t, hs⟩ := h.step_next
  exact ⟨h.exec_next, t, hs, fun _ _ => step_appends_answer hs⟩

end Sys2Proof.Machine
end

section
/-! PROOF. How a command ends (60_exceptions R244 to R251). Every command that goes on, and the run of an illegal word, ends in
`finish` with `ERR_INFO` 0 where the code is OK, from a STATUS that CLEAR and ECLR alone have touched before. What R245 says
of a run and R251 of a step is read off that; the other steps leave `STICKY` or are reset. -/

namespace Sys2Proof.Machine

/-! The record of a command's end. -/

/-- `t` is left by the end of a command with low byte `op`, from STATUS `st` (60_exceptions R245, with R241's `ERR_INFO` of
OK). -/
def RecordsEnd (st : Status) (op : Byte) (t : State) : Prop :=
  t.status = statusAfter st op t.status.result ∧ (t.status.result = .ok → t.errInfo = 0)

/-- STATUS as the word `w` leaves it before its end: CLEAR and ECLR alone clear `STICKY` (46_control_commands R221, R223). -/
def statusBefore (w : Word) (st : Status) : Status :=
  if w = encode .clear ∨ w = encode .eclr then stickyCleared st else st

theorem statusBefore_sticky (w : Word) (st : Status) :
    (statusBefore w st).sticky = if w = encode .clear ∨ w = encode .eclr then false else st.sticky :=
  apply_ite Status.sticky _ _ _

section
variable {st : Status} {op : Byte} {s t : State}

theorem recordsEnd_finish_ok (hst : s.status = st) : RecordsEnd st op (finish op .ok 0 s) :=
  hst ▸ ⟨rfl, fun _ => rfl⟩

theorem recordsEnd_raise {code : ResultCode} {info : Word} (hcode : code ≠ .ok) (hst : s.status = st) :
    RecordsEnd st op (raise op code info s) :=
  hst ▸ ⟨rfl, fun hok => absurd hok hcode⟩

theorem RecordsEnd.lastop_eq (h : RecordsEnd st op t) : t.status.lastop = op := by
  obtain ⟨hstatus, -⟩ := h
  rw [hstatus, statusAfter_lastop]

theorem RecordsEnd.errInfo_of_ok (h : RecordsEnd st op t) : t.status.result = .ok → t.errInfo = 0 := h.2

theorem RecordsEnd.sticky_eq (h : RecordsEnd st op t) : t.status.sticky = stickyAfter st.sticky t.status.result := by
  obtain ⟨hstatus, -⟩ := h
  rw [hstatus, statusAfter_sticky, statusAfter_result]

end

/-! Every run ends so. -/

theorem packStream_recordsEnd (xs : List Byte) (s : State) : RecordsEnd s.status (opcodeOf .pack) (packStream xs s) := by
  rcases packStream_cases xs s with ⟨i, -, he⟩ | ⟨-, -, he⟩ | ⟨-, -, he⟩ <;> rw [he]
  · exact recordsEnd_raise (by decide) rfl
  · exact recordsEnd_raise (by decide) rfl
  · exact recordsEnd_finish_ok rfl

theorem unpackStream_recordsEnd (xs : List Byte) (s : State) :
    RecordsEnd s.status (opcodeOf .unpack) (unpackStream xs s) := by
  rcases unpackStream_cases xs s with ⟨code, info, hcode, -, he⟩ | ⟨header, payload, -, -, -, -, -, he⟩ <;> rw [he]
  · exact recordsEnd_raise hcode rfl
  · exact recordsEnd_finish_ok rfl

theorem exec_recordsEnd {i : Instr} {s t : State} (h : exec i s = .next t) :
    RecordsEnd (statusBefore (encode i) s.status) (opcodeOf i) t := by
  cases i with
  | nop | clear | count | eclr => cases h; exact recordsEnd_finish_ok rfl
  | build =>
    rw [exec_build_eq] at h
    split_ifs at h <;> cases h
    · exact recordsEnd_raise (by decide) rfl
    · exact recordsEnd_finish_ok rfl
  | codes => obtain ⟨-, rfl⟩ | ⟨-, ct, -, rfl⟩ := exec_codes_cases h <;> exact recordsEnd_finish_ok rfl
  | pack => cases h; exact packStream_recordsEnd _ _
  | unpack => cases h; exact unpackStream_recordsEnd _ _

/-- An illegal word ends in an error, which sets `STICKY` whatever it was before. -/
theorem illegalCommand_recordsEnd (st : Status) (w : Word) (s : State) :
    RecordsEnd st (w.extractLsb' 0 8) (illegalCommand w s) :=
  ⟨rfl, nofun⟩

theorem runCommand_recordsEnd {w : Word} {s t : State} (h : runCommand w s = .next t) :
    RecordsEnd (statusBefore w s.status) (w.extractLsb' 0 8) t := by
  rcases runCommand_cases h with ⟨i, hi, hexec⟩ | ⟨-, rfl⟩
  · obtain rfl := (decodeIffEncoded w i).mp hi
    exact exec_recordsEnd hexec
  · exact illegalCommand_recordsEnd _ w s

/-- Settles O6: an error sets `STICKY` in the end itself, and OK keeps what the command left there before its end. -/
theorem commandEndRecord : Obligations.CommandEndRecord := by
  intro w s t hrun
  have hend := runCommand_recordsEnd hrun
  refine ⟨hend.lastop_eq, hend.errInfo_of_ok, fun herr => ?_, fun hok => ?_⟩
  · rw [hend.sticky_eq, stickyAfter_of_ne_ok _ herr]
  · rw [hend.sticky_eq, hok, stickyAfter_ok, statusBefore_sticky]

/-! The step. -/

/-- A stored write leaves STATUS (20_memory R68). -/
theorem writeTarget_keeps_status {g : Target} {w : Word} {s s' : State} (h : writeTarget g w s = some s') :
    s'.status = s.status := by
  rcases writeTarget_cases h with ⟨-, -, rfl⟩ | ⟨-, -, rfl⟩ | ⟨_, -, rfl⟩ | ⟨_, -, rfl⟩ | ⟨_, -, rfl⟩ <;> rfl

/-- A run that takes `STICKY` from 1 to 0 is of CLEAR or ECLR: any other ends from a STATUS with `STICKY` 1, and no end
clears it. -/
theorem RecordsEnd.clear_or_eclr {w : Word} {op : Byte} {s t : State} (h : RecordsEnd (statusBefore w s.status) op t)
    (h1 : s.status.sticky = true) (h0 : t.status.sticky = false) : w = encode .clear ∨ w = encode .eclr := by
  by_contra hw
  have hbefore : (statusBefore w s.status).sticky = true := by rw [statusBefore_sticky, if_neg hw, h1]
  rw [h.sticky_eq, stickyAfter_eq, hbefore, Bool.true_or] at h0
  cases h0

/-- Settles O7: every step but reset and the two commands leaves `STICKY` or sets it. -/
theorem stickyClearedOnly : Obligations.StickyClearedOnly := by
  intro s t hs h1 h0
  have hkept : t.status ≠ s.status := fun heq => by rw [heq, h1] at h0; cases h0
  rcases step_cases hs with ⟨-, rfl⟩ | ⟨x, rest, hpend, hx⟩
  · exact absurd rfl hkept
  refine ⟨rest, ?_⟩
  rcases hx with ⟨rfl, -⟩ | ⟨a, -, rfl⟩ | ⟨a, w, rfl, hw⟩
  · exact .inl hpend
  · obtain ⟨r, v, d, he⟩ := hostRead_eq a { s with pending := rest }
    rw [he] at hkept
    exact absurd rfl hkept
  · rcases hw with rfl | ⟨g, s', -, -, hstore, rfl⟩ | ⟨i, s', rfl, hi, hexec, rfl⟩ | ⟨-, rfl⟩
    · exact absurd rfl hkept
    · exact absurd (writeTarget_keeps_status hstore) hkept
    · obtain rfl := (decodeIffEncoded w i).mp hi
      rcases (exec_recordsEnd hexec).clear_or_eclr h1 h0 with hclear | heclr
      · exact .inr (.inl (hclear ▸ hpend))
      · exact .inr (.inr (heclr ▸ hpend))
    · cases h0

/-- A write to CMD runs its word, a command's or not (10_state R24). -/
theorem step_of_cmd {s : State} {w : Word} {rest : List HostInput} (hp : s.pending = .write cmdAddr w :: rest) :
    step s = answerCommand (runCommand w { s with pending := rest }) := by
  rw [step_of_pending hp]
  simp only [answer, hostWrite, aligned_cmdAddr, decodeAddr_cmdAddr, if_true]

theorem runCommand_of_illegal {w : Word} {e : DecodeError} (h : decode w = .error e) (s : State) :
    runCommand w s = .next (illegalCommand w s) := by
  rw [runCommand, h]

/-- Settles O5: the run of an illegal word is its `IllegalCommand`, and the answer adds nothing but a response. -/
theorem illegalCommandEffect : Obligations.IllegalCommandEffect := by
  intro s w e rest hp hillegal
  rw [step_of_cmd hp, runCommand_of_illegal hillegal]
  rfl

end Sys2Proof.Machine
end

section
/-! PROOF. Reset (70_reset_and_hazards). The `reset` input is one case of the step. At reset the lengths are 0, the tables
empty and there is no tree, so what each command does there (R272) is its statement for empty inputs. -/

namespace Sys2Proof.Machine

/-- Settles O9: the answer to `reset` is `resetInput`, which looks at the capacities and the model's own fields alone. -/
theorem resetInputRestores : Obligations.ResetInputRestores := fun _ _ hp => step_of_pending hp

/-- Capacities in range leave room for an artifact of one byte (00_scope R6). -/
theorem one_le_artCap {c : Caps} (hc : c.wellFormed = true) : 1 ≤ c.artCap := by
  simp only [Caps.wellFormed, capOk, Bool.and_eq_true, decide_eq_true_eq] at hc
  omega

/-- Settles O10: every command by its own statement, for the empty source, artifact and table and for no tree. -/
theorem commandsFromReset : Obligations.CommandsFromReset := by
  intro c hc s
  obtain ⟨-, hidle⟩ := readAndIdleChangeNothing
  obtain ⟨t, hclear, -, ht⟩ := clearIsResetButBuffers s
  obtain ⟨t', heclr, -, ht'⟩ := eclrClearsErrorRecord s
  obtain ⟨f, d, hcount, -, hfreq⟩ := countCompletes s
  obtain ⟨hcodes, hcode⟩ := codesWithoutTree s rfl
  obtain ⟨hunpackEmpty, -⟩ := unpackHeaderFaults
  obtain ⟨a, d', hunpack⟩ := hunpackEmpty s rfl
  obtain ⟨hpack, -⟩ := emptyArtifact s
  exact
    ⟨hidle s rfl,
      ⟨_, nopRecordsOnly s, rfl⟩,
      ⟨t, hclear, by rw [ht]⟩,
      ⟨_, hcount, rfl, hfreq rfl⟩,
      ⟨_, buildOfEmptyTable s symGet_freq_empty, rfl⟩,
      ⟨_, hcodes, rfl, hcode⟩,
      ⟨_, hpack rfl (one_le_artCap hc), rfl, rfl, rfl⟩,
      ⟨_, hunpack, rfl, rfl⟩,
      ⟨t', heclr, by rw [ht']⟩⟩

end Sys2Proof.Machine
end
